-- ==== Sys2Proof/Word.lean ====
section
/-! DEFINITION. The word types of the engine: u32 words, bytes and 64-byte blocks (spec/00_scope.md rules R9, R10). -/

namespace Sys2Proof

/-- `u32`: a 32-bit unsigned word; `+` on it is addition modulo 2^32 (00_scope.md R10). -/
abbrev Word := BitVec 32

/-- A byte is 8 bits (00_scope.md R9). -/
abbrev Byte := BitVec 8

/-- A block as the sequence of its bytes, index 0 first; 64 bytes wherever the spec speaks of a
Block (00_scope.md R16), which is the invariant `Engine.Wf` and not part of the type. -/
abbrev Block := List Byte

end Sys2Proof
end

