-- ==== Sys2Proof/Syntax.lean ====
section
/-! DEFINITION. The commands of the engine: one constructor per row of spec/opcode_table.json (spec/30_encoding.md rule R93). -/

namespace Sys2Proof

/-- A command. The NB operand is the count the command word holds, "used as is, with no scaling or
offset" (30_encoding.md R94); it is a number, and `WellFormed` says that it fits the 3-bit field. -/
inductive Instr where
  /-- NOP, word 0x00000000 (43_digest_accumulator.md R206). -/
  | nop
  /-- INIT, word 0x00000001 (43_digest_accumulator.md R202). -/
  | init
  /-- UPDATE nb, word 0x00000002 | nb << 4 (40_block_framer.md R131). -/
  | update (nb : Nat)
  /-- FINAL, word 0x00000003 (40_block_framer.md R135). -/
  | final
  /-- CLRERR, word 0x00000004 (43_digest_accumulator.md R207). -/
  | clrerr
  deriving DecidableEq, Repr

end Sys2Proof
end

