-- ==== Sys2Proof/WellFormed.lean ====
section
/-! DEFINITION. Which commands a command word can hold (spec/30_encoding.md rules R91, R94). -/

namespace Sys2Proof

/-- A command the word format can hold: NB is a 3-bit field, so UPDATE's count is 0 to 7
(30_encoding.md R91, R94; the syntax of R100 admits the same). Whether the count is legal (1 to 4)
is a check of execution, not of the encoding (R94). -/
def Instr.wellFormed : Instr → Bool
  | .nop => true
  | .init => true
  | .update nb => decide (nb < 8)
  | .final => true
  | .clrerr => true

/-- The commands of the table of 30_encoding.md R99, "every legal command". -/
def Instr.legal : Instr → Bool
  | .nop => true
  | .init => true
  | .update nb => decide (1 ≤ nb ∧ nb ≤ 4)
  | .final => true
  | .clrerr => true

end Sys2Proof
end

