-- ==== Sys2Proof/Decode.lean ====
section
/-! DEFINITION. Decoding a command word, total on every 32-bit word (spec/30_encoding.md rules R91 to R98), and the encoder (R99). -/

namespace Sys2Proof

/-- OP, bits 3:0 (30_encoding.md R91). -/
def opField (w : Word) : Nat := (w.extractLsb' 0 4).toNat

/-- NB, bits 6:4 (30_encoding.md R91). -/
def nbField (w : Word) : Nat := (w.extractLsb' 4 3).toNat

/-- RSVD, bits 31:7 (30_encoding.md R91). -/
def rsvdField (w : Word) : Nat := (w.extractLsb' 7 25).toNat

/-- Why a word is ILLEGAL: the three clauses of 30_encoding.md R97, in the order of R96. -/
inductive DecodeError where
  /-- (a) RSVD ≠ 0. -/
  | reservedBits
  /-- (b) OP is one of 0x5 to 0xF. -/
  | reservedOp
  /-- (c) OP is not UPDATE's and NB ≠ 0. -/
  | nbOutsideUpdate
  deriving DecidableEq, Repr

/-- The command of an opcode that is not reserved (30_encoding.md R93). -/
def instrOfOp (op nb : Nat) : Instr :=
  match op with
  | 0 => .nop
  | 1 => .init
  | 2 => .update nb
  | 3 => .final
  | _ => .clrerr

/-- The decode function of 30_encoding.md R96, check by check in its order. -/
def decode (w : Word) : Except DecodeError Instr :=
  if rsvdField w ≠ 0 then .error .reservedBits
  else if 5 ≤ opField w then .error .reservedOp
  else if opField w ≠ 2 ∧ nbField w ≠ 0 then .error .nbOutsideUpdate
  else .ok (instrOfOp (opField w) (nbField w))

/-- The opcode of a command (30_encoding.md R93). -/
def opcode : Instr → Nat
  | .nop => 0
  | .init => 1
  | .update _ => 2
  | .final => 3
  | .clrerr => 4

/-- The NB operand a command's word holds: 0 but for UPDATE (30_encoding.md R93). -/
def nbOperand : Instr → Nat
  | .nop => 0
  | .init => 0
  | .update nb => nb
  | .final => 0
  | .clrerr => 0

/-- The word of a command, `word = OP | (NB << 4)` (30_encoding.md R99). -/
def encode (i : Instr) : Word :=
  BitVec.ofNat 32 (opcode i ||| (nbOperand i <<< 4))

/-- The command the decoder reads from an instruction whose bits are `w`, as the opcode table
numbers them: every command is exactly 32 bits, one word (30_encoding.md R92), bit 0 of the table
is bit 0 of that word. The bits of `w` from `nbits` on are 0; a number of more than 32 bits is no
command word. -/
def decodeTableWord (nbits w : Nat) : Option Instr :=
  if w % 2 ^ nbits < 2 ^ 32 then
    match decode (BitVec.ofNat 32 (w % 2 ^ nbits)) with
    | .ok i => some i
    | .error _ => none
  else none

end Sys2Proof
end

