-- ==== Sys2Proof/Config.lean ====
section
/-! DEFINITION. What the implementation fixes, and the free values: the values the spec leaves open (spec/00_scope.md rule R8, spec/93_implementation_defined.md). -/

namespace Sys2Proof.Config

/-- LMAX, the maximum message length in bytes: 2^61 − 1 (00_scope.md R8, 10_state.md R29). -/
def lmax : Nat := 2 ^ 61 - 1

/-- The window is 256 bytes (00_scope.md R8, 10_state.md R36). -/
def windowSize : Nat := 256

/-- `draw u32` (00_scope.md R13): the free word number `n` of the instance at `base`. No body:
nothing can be proved of its value, so a claim holds whatever the hardware returns
(notes/assumptions/3.md). Instances at different BASEs draw from different sequences, so nothing
relates their values (notes/assumptions/11.md). -/
opaque freeWord (base n : Nat) : Word

/-- The free natural number number `n` of the instance at `base`: how many host accesses come between the acceptance of
work and its completion (20_memory.md R79, notes/assumptions/4.md), and the round index outside a
completion step (93 I11, notes/assumptions/8.md). No body. -/
opaque freeNat (base n : Nat) : Nat

end Sys2Proof.Config
end

