-- ==== Sys2Proof/Machine/Tables.lean ====
section
/-! DEFINITION. The hash state, the working variables, and the two read-only tables K and IV (spec/10_state.md rules R21, R22, R25, R26). -/

namespace Sys2Proof.Machine

/-- HashState: "exactly 8 unsigned 32-bit words" H[0..7] (10_state.md R21). -/
structure HashState where
  h0 : Word
  h1 : Word
  h2 : Word
  h3 : Word
  h4 : Word
  h5 : Word
  h6 : Word
  h7 : Word
  deriving DecidableEq, Repr

/-- The words of a hash state, H[0] first. -/
def HashState.words (H : HashState) : List Word :=
  [H.h0, H.h1, H.h2, H.h3, H.h4, H.h5, H.h6, H.h7]

/-- H[i] for i = 0 .. 7 (10_state.md R21). -/
def HashState.word (H : HashState) (i : Nat) : Word := H.words.getD i 0

/-- The working variables a, b, c, d, e, f, g, h (10_state.md R22). -/
structure Working where
  a : Word
  b : Word
  c : Word
  d : Word
  e : Word
  f : Word
  g : Word
  h : Word
  deriving DecidableEq, Repr

/-- IV[0..7], the InitialState (43_digest_accumulator.md R200). -/
def iv : HashState where
  h0 := 0x6a09e667#32
  h1 := 0xbb67ae85#32
  h2 := 0x3c6ef372#32
  h3 := 0xa54ff53a#32
  h4 := 0x510e527f#32
  h5 := 0x9b05688c#32
  h6 := 0x1f83d9ab#32
  h7 := 0x5be0cd19#32

/-- Rows 0 and 1 of the RoundConstants (42_compressor.md R170). -/
def kRows01 : List Word :=
  [0x428a2f98#32, 0x71374491#32, 0xb5c0fbcf#32, 0xe9b5dba5#32,
   0x3956c25b#32, 0x59f111f1#32, 0x923f82a4#32, 0xab1c5ed5#32,
   0xd807aa98#32, 0x12835b01#32, 0x243185be#32, 0x550c7dc3#32,
   0x72be5d74#32, 0x80deb1fe#32, 0x9bdc06a7#32, 0xc19bf174#32]

/-- Rows 2 and 3 of the RoundConstants (42_compressor.md R170). -/
def kRows23 : List Word :=
  [0xe49b69c1#32, 0xefbe4786#32, 0x0fc19dc6#32, 0x240ca1cc#32,
   0x2de92c6f#32, 0x4a7484aa#32, 0x5cb0a9dc#32, 0x76f988da#32,
   0x983e5152#32, 0xa831c66d#32, 0xb00327c8#32, 0xbf597fc7#32,
   0xc6e00bf3#32, 0xd5a79147#32, 0x06ca6351#32, 0x14292967#32]

/-- Rows 4 and 5 of the RoundConstants (42_compressor.md R170). -/
def kRows45 : List Word :=
  [0x27b70a85#32, 0x2e1b2138#32, 0x4d2c6dfc#32, 0x53380d13#32,
   0x650a7354#32, 0x766a0abb#32, 0x81c2c92e#32, 0x92722c85#32,
   0xa2bfe8a1#32, 0xa81a664b#32, 0xc24b8b70#32, 0xc76c51a3#32,
   0xd192e819#32, 0xd6990624#32, 0xf40e3585#32, 0x106aa070#32]

/-- Rows 6 and 7 of the RoundConstants (42_compressor.md R170). -/
def kRows67 : List Word :=
  [0x19a4c116#32, 0x1e376c08#32, 0x2748774c#32, 0x34b0bcb5#32,
   0x391c0cb3#32, 0x4ed8aa4a#32, 0x5b9cca4f#32, 0x682e6ff3#32,
   0x748f82ee#32, 0x78a5636f#32, 0x84c87814#32, 0x8cc70208#32,
   0x90befffa#32, 0xa4506ceb#32, 0xbef9a3f7#32, 0xc67178f2#32]

/-- K[0..63], the RoundConstants (42_compressor.md R170, 10_state.md R25). -/
def kTable : List Word := kRows01 ++ (kRows23 ++ (kRows45 ++ kRows67))

/-- K[t] for t = 0 .. 63. -/
def kWord (t : Nat) : Word := kTable.getD t 0

end Sys2Proof.Machine
end

