-- ==== Sys2Proof/Machine/State.lean ====
section
/-! DEFINITION. The state of the machine as plain data, the reasons it can stop, and the state after reset (spec/10_state.md rules R20 to R48). -/

namespace Sys2Proof.Machine

/-- The message-level state (10_state.md R30). Code 3 does not exist. -/
inductive Phase where
  /-- 0: no message started since reset. -/
  | idle
  /-- 1: a message is open. -/
  | absorb
  /-- 2: the message is closed. -/
  | done
  deriving DecidableEq, Repr

/-- The error codes that are produced (60_exceptions.md R231). -/
inductive ErrCode where
  /-- 0: no error recorded. -/
  | none
  /-- 1: illegal command word (R232). -/
  | illegal
  /-- 2: engine command while BUSY = 1 (R233). -/
  | busy
  /-- 3: command illegal in the current phase (R234). -/
  | seq
  /-- 4: byte count outside 1..4 (R235). -/
  | arg
  /-- 5: message would exceed LMAX bytes (R237). -/
  | len
  deriving DecidableEq, Repr

/-- The internal round state W[0..63], a..h, t (10_state.md R22, R23, R24). -/
structure Rounds where
  /-- The MessageSchedule W[0..63]. -/
  w : List Word
  /-- The working variables a..h. -/
  vars : Working
  /-- The round index, 0 to 63. -/
  t : Nat
  deriving DecidableEq, Repr

/-- The state `E` of one engine instance (10_state.md R20). -/
structure Engine where
  /-- H[0..7] (R21). -/
  h : HashState
  /-- PHASE (R30). -/
  phase : Phase
  /-- LEN, the number of message bytes accepted since the last INIT (R29). -/
  len : Nat
  /-- BUF, the partial block (R31). -/
  buf : List Byte
  /-- PEND, the pending blocks, in the order they must be compressed (R34). -/
  pend : List Block
  /-- BUSY (R32). -/
  busy : Bool
  /-- ERR, sticky (R33). -/
  err : Bool
  /-- ERRCODE (R33). -/
  errCode : ErrCode
  /-- DATA (R28). -/
  data : Word
  /-- W, a..h, t: never visible to the host (R44). -/
  rounds : Rounds
  deriving DecidableEq, Repr

/-- What reaches the engine from outside: the host's accesses (43_digest_accumulator.md R208,
R209), its poll loop (30_encoding.md R101), and the platform's reset (70_reset_and_hazards.md R260). -/
inductive HostEvent where
  /-- A read of `size` bytes at byte address `addr`. -/
  | read (addr size : Nat)
  /-- A write of `size` bytes at byte address `addr`; the value is meaningful for 4 bytes. -/
  | write (addr size : Nat) (value : Word)
  /-- `poll`: read STATUS, and again as long as bit 0 of it is 1. -/
  | poll
  /-- The platform resets the engine. -/
  | reset
  deriving DecidableEq, Repr

/-- The whole machine: the engine, the window's base, and the host's side of the interface. -/
structure State where
  /-- BASE, the window's base address, an OPEN parameter (00_scope.md R8); no step writes it. -/
  base : Nat
  /-- The engine instance E. -/
  e : Engine
  /-- The host events still to come, in program order (20_memory.md R75). -/
  queue : List HostEvent
  /-- The words the host's reads have returned, newest first. -/
  returned : List Word
  /-- The model's own counter: how many free values have been taken (notes/assumptions/3.md). -/
  draws : Nat
  /-- The model's own counter: how many host events still come before the pending completion
  (notes/assumptions/4.md); it means something only while BUSY = 1. -/
  delay : Nat
  deriving DecidableEq, Repr

/-- Why the machine stops. The engine itself takes no traps (60_exceptions.md R240): both reasons
are the spec's `stuck`, raised by the bus operations of Machine/Bus.lean, never by a command. -/
inductive Fault where
  /-- An access in the window of another size than 4 bytes: "has no step in the model"
  (20_memory.md R62). Safe: the platform may split, trap, ignore or corrupt it. -/
  | wrongSize (size : Nat)
  /-- An access in the window at an offset that is no multiple of 4: "has no step in the model"
  (20_memory.md R62). Safe, for the same reason. -/
  | misaligned (off : Nat)
  deriving DecidableEq, Repr

/-- Why an instruction has no meaning in the model. -/
inductive Refusal where
  /-- Raised by an arm of `exec` for a command that has no meaning yet; no arm does. Safe. -/
  | notModelled (mnemonic : String)
  deriving DecidableEq, Repr

/-- W, a..h and t right after reset: the spec gives no value (10_state.md R48 "unspecified and
never observable"). DESIGN CHOICE: zero (notes/assumptions/1.md, unsafe). -/
def Rounds.reset : Rounds where
  w := List.replicate 64 0
  vars := ⟨0, 0, 0, 0, 0, 0, 0, 0⟩
  t := 0

/-- The engine right after reset (10_state.md R48). -/
def Engine.reset : Engine where
  h := iv
  phase := .idle
  len := 0
  buf := []
  pend := []
  busy := false
  err := false
  errCode := .none
  data := 0
  rounds := Rounds.reset

/-- The machine right after reset, its window at `base`, with no host event issued. -/
def State.resetAt (base : Nat) : State where
  base := base
  e := Engine.reset
  queue := []
  returned := []
  draws := 0
  delay := 0

/-- The machine right after reset (10_state.md R48). BASE is OPEN; DESIGN CHOICE: 0
(notes/assumptions/2.md). -/
def State.reset : State := State.resetAt 0

end Sys2Proof.Machine
end

