-- ==== Sys2Proof/Machine/Ops.lean ====
section
/-! DEFINITION. The named operations over the state that the commands and the bus share. The engine takes no traps (spec/60_exceptions.md rule R240): what stands in the place of taking an exception is `reject`, and of returning from one `clearError`. -/

namespace Sys2Proof.Machine

/-- What one command or one step answers. -/
abbrev Result := Host.Outcome State Fault Refusal

/-- `reject(code)` on E: the first error is kept, nothing else changes (60_exceptions.md R236). -/
def Engine.reject (code : ErrCode) (e : Engine) : Engine :=
  if e.err then e else { e with err := true, errCode := code }

/-- `reject(code)`: the command has no further effect (60_exceptions.md R230, R236). -/
def State.reject (code : ErrCode) (s : State) : State :=
  { s with e := s.e.reject code }

/-- ERR <- 0; ERRCODE <- 0 (43_digest_accumulator.md R207), the only "return" from an error
(60_exceptions.md R241). -/
def State.clearError (s : State) : State :=
  { s with e := { s.e with err := false, errCode := .none } }

/-- H <- IV, LEN <- 0, BUF <- [], PHASE <- ABSORB (43_digest_accumulator.md R202). -/
def State.startMessage (s : State) : State :=
  { s with e := { s.e with h := iv, len := 0, buf := [], phase := .absorb } }

/-- DATA <- v (10_state.md R39). -/
def State.writeData (v : Word) (s : State) : State :=
  { s with e := { s.e with data := v } }

/-- A read gives the word `v` to the host; E does not change (20_memory.md R71). The number of the
free value the read may have returned is used up (notes/assumptions/3.md). -/
def State.giveHost (v : Word) (s : State) : State :=
  { s with returned := v :: s.returned, draws := s.draws + 1 }

/-- How many free values `freeRounds` takes: 64 schedule words, 8 working variables, the index. -/
def roundDraws : Nat := 73

/-- Any value of W, a..h and t (93_implementation_defined.md I11), from the free values of the
instance at `b` numbered `d` on (notes/assumptions/8.md). -/
def freeRounds (b d : Nat) : Rounds where
  w := (List.range 64).map fun i => Config.freeWord b (d + i)
  vars :=
    { a := Config.freeWord b (d + 64), b := Config.freeWord b (d + 65)
      c := Config.freeWord b (d + 66), d := Config.freeWord b (d + 67)
      e := Config.freeWord b (d + 68), f := Config.freeWord b (d + 69)
      g := Config.freeWord b (d + 70), h := Config.freeWord b (d + 71) }
  t := Config.freeNat b (d + 72) % 64

/-- W, a..h and t hold any value from here on (93_implementation_defined.md I11). DESIGN CHOICE: the
new values come at a few points (acceptance of work, completion, reset), and stay as they are
between them (notes/assumptions/8.md). -/
def State.loseRounds (s : State) : State :=
  { s with e := { s.e with rounds := freeRounds s.base s.draws }, draws := s.draws + roundDraws }

/-- PEND <- bs and BUSY <- 1 (40_block_framer.md R131, R135). How many host events come before the
completion is a free value (notes/assumptions/4.md), and while BUSY = 1 W, a..h and t may be
anything (10_state.md R44): they hold free values from acceptance on (notes/assumptions/8.md). -/
def State.startWork (bs : List Block) (s : State) : State :=
  ({ s with
    e := { s.e with pend := bs, busy := true }
    delay := Config.freeNat s.base s.draws
    draws := s.draws + 1 }).loseRounds

/-- The platform's reset of the engine (70_reset_and_hazards.md R260): every field of E at its
reset value, pending work discarded without being compressed; W, a..h, t are unspecified after
reset (10_state.md R48), so they hold free values. -/
def State.platformReset (s : State) : State :=
  ({ s with e := Engine.reset }).loseRounds

end Sys2Proof.Machine
end

