-- ==== Sys2Proof/Machine/Bytes.lean ====
section
/-! DEFINITION. Words and bytes: rotation, shift, the big-endian conversions and the cutting of a byte sequence into blocks (spec/00_scope.md rules R9 to R14). -/

namespace Sys2Proof.Machine

/-- ROTR(x, n) for 0 < n < 32 (00_scope.md R11). -/
def rotr (x : Word) (n : Nat) : Word := (x >>> n) ||| (x <<< (32 - n))

/-- SHR(x, n): the logical shift right (00_scope.md R11). -/
def shr (x : Word) (n : Nat) : Word := x >>> n

/-- be32: four bytes as a word, "byte 0 is the most significant" (00_scope.md R12), written as the
concatenation of their bits, B[0]<<24 | B[1]<<16 | B[2]<<8 | B[3] (41_message_scheduler.md R151);
`be32_toNat` in Laws/Bytes.lean gives the sum of R12. -/
def be32 (b0 b1 b2 b3 : Byte) : Word := ((b0 ++ b1) ++ (b2 ++ b3) : BitVec (8 + 8 + (8 + 8)))

/-- bytes32(x) = [x[31:24], x[23:16], x[15:8], x[7:0]] (00_scope.md R12). -/
def bytes32 (x : Word) : List Byte :=
  [x.extractLsb' 24 8, x.extractLsb' 16 8, x.extractLsb' 8 8, x.extractLsb' 0 8]

/-- be64bytes(v) for 0 ≤ v < 2^64: the 8 bytes of v, most significant first (00_scope.md R12). -/
def be64bytes (v : Nat) : List Byte :=
  [56, 48, 40, 32, 24, 16, 8, 0].map fun k => BitVec.ofNat 8 (v >>> k)

/-- zeros(n): n bytes of 0x00 (00_scope.md R9). -/
def zeros (n : Nat) : List Byte := List.replicate n 0

/-- The first `n` 64-byte pieces of a byte sequence, in order. -/
def takeBlocks : Nat → List Byte → List Block
  | 0, _ => []
  | n + 1, P => P.take 64 :: takeBlocks n (P.drop 64)

/-- blocks(P): P, whose length is a multiple of 64, as 64-byte blocks in order (00_scope.md R14). -/
def blocks (P : List Byte) : List Block := takeBlocks (P.length / 64) P

end Sys2Proof.Machine
end

