-- ==== Sys2Proof/Machine/Scheduler.lean ====
section
/-! DEFINITION. The Message Scheduler: a 64-byte block expanded into 64 words (spec/41_message_scheduler.md). -/

namespace Sys2Proof.Machine

/-- σ0(x) = ROTR(x, 7) ^ ROTR(x, 18) ^ SHR(x, 3) (41_message_scheduler.md R152). -/
def smallSigma0 (x : Word) : Word := rotr x 7 ^^^ rotr x 18 ^^^ shr x 3

/-- σ1(x) = ROTR(x, 17) ^ ROTR(x, 19) ^ SHR(x, 10) (41_message_scheduler.md R152). -/
def smallSigma1 (x : Word) : Word := rotr x 17 ^^^ rotr x 19 ^^^ shr x 10

/-- W[i] for i = 0 .. 15: be32 of bytes 4i to 4i + 3 of the block (41_message_scheduler.md R151). -/
def blockWord (B : Block) (i : Nat) : Word :=
  be32 (B.getD (4 * i) 0) (B.getD (4 * i + 1) 0) (B.getD (4 * i + 2) 0) (B.getD (4 * i + 3) 0)

/-- W[0..15] (41_message_scheduler.md R151). -/
def blockWords (B : Block) : List Word := (List.range 16).map (blockWord B)

/-- The sum of R153 from the four words it reads (41_message_scheduler.md R153). -/
def scheduleSum (w2 w7 w15 w16 : Word) : Word := smallSigma1 w2 + w7 + smallSigma0 w15 + w16

/-- One more word, W[i], from the words with smaller index (41_message_scheduler.md R153). -/
def extendSchedule (W : List Word) (i : Nat) : List Word :=
  W ++ [scheduleSum (W.getD (i - 2) 0) (W.getD (i - 7) 0) (W.getD (i - 15) 0) (W.getD (i - 16) 0)]

/-- schedule(B) = W[0..63], words 16 to 63 in increasing i (41_message_scheduler.md R153). -/
def schedule (B : Block) : List Word :=
  (List.range' 16 48).foldl extendSchedule (blockWords B)

/-- The sliding window of 41_message_scheduler.md R156: from W[t−16..t−1] to W[t−15..t]. -/
def slideWindow (V : List Word) : List Word :=
  V.drop 1 ++ [scheduleSum (V.getD 14 0) (V.getD 9 0) (V.getD 1 0) (V.getD 0 0)]

/-- W[t] as an implementation with a 16-word window computes it in round t
(41_message_scheduler.md R156, 10_state.md R45). -/
def windowWord (B : Block) (t : Nat) : Word :=
  if t < 16 then blockWord B t
  else (slideWindow^[t - 15] (blockWords B)).getD 15 0

end Sys2Proof.Machine
end

