-- ==== Sys2Proof/Machine/Compressor.lean ====
section
/-! DEFINITION. The compression unit: the round, the 64 rounds with the feed-forward, and the engine's completion step (spec/42_compressor.md). -/

namespace Sys2Proof.Machine

/-- Σ0(x) = ROTR(x, 2) ^ ROTR(x, 13) ^ ROTR(x, 22) (42_compressor.md R171). -/
def bigSigma0 (x : Word) : Word := rotr x 2 ^^^ rotr x 13 ^^^ rotr x 22

/-- Σ1(x) = ROTR(x, 6) ^ ROTR(x, 11) ^ ROTR(x, 25) (42_compressor.md R172). -/
def bigSigma1 (x : Word) : Word := rotr x 6 ^^^ rotr x 11 ^^^ rotr x 25

/-- Ch(e, f, g) = (e & f) ^ (~e & g) (42_compressor.md R173). -/
def ch (e f g : Word) : Word := (e &&& f) ^^^ (~~~e &&& g)

/-- Maj(a, b, c) = (a & b) ^ (a & c) ^ (b & c) (42_compressor.md R174). -/
def maj (a b c : Word) : Word := (a &&& b) ^^^ (a &&& c) ^^^ (b &&& c)

/-- T1 = h + Σ1(e) + Ch(e, f, g) + K[t] + W[t] (42_compressor.md R177). -/
def temp1 (v : Working) (k w : Word) : Word := v.h + bigSigma1 v.e + ch v.e v.f v.g + k + w

/-- T2 = Σ0(a) + Maj(a, b, c) (42_compressor.md R177). -/
def temp2 (v : Working) : Word := bigSigma0 v.a + maj v.a v.b v.c

/-- One round with its constant and schedule word: all right-hand sides use the values from before
the round (42_compressor.md R178). -/
def roundWith (k w : Word) (v : Working) : Working where
  a := temp1 v k w + temp2 v
  b := v.a
  c := v.b
  d := v.c
  e := v.d + temp1 v k w
  f := v.e
  g := v.f
  h := v.g

/-- round(t) under the schedule W (42_compressor.md R178). -/
def roundAt (W : List Word) (v : Working) (t : Nat) : Working :=
  roundWith (kWord t) (W.getD t 0) v

/-- The working-variable load (42_compressor.md R176). -/
def loadVars (H : HashState) : Working where
  a := H.h0
  b := H.h1
  c := H.h2
  d := H.h3
  e := H.h4
  f := H.h5
  g := H.h6
  h := H.h7

/-- The feed-forward: H[i] + working variable, modulo 2^32 (42_compressor.md R180). -/
def feedForward (H : HashState) (v : Working) : HashState where
  h0 := H.h0 + v.a
  h1 := H.h1 + v.b
  h2 := H.h2 + v.c
  h3 := H.h3 + v.d
  h4 := H.h4 + v.e
  h5 := H.h5 + v.f
  h6 := H.h6 + v.g
  h7 := H.h7 + v.h

/-- compress(H, B) as one pure function (42_compressor.md R181). -/
def compress (H : HashState) (B : Block) : HashState :=
  feedForward H ((List.range 64).foldl (roundAt (schedule B)) (loadVars H))

/-- fold(H, [B0..Bn−1]) (00_scope.md R14). -/
def fold (H : HashState) (bs : List Block) : HashState := bs.foldl compress H

/-- The start of a block on the internal round state: W <- schedule(B), a..h <- H, t <- 0
(41_message_scheduler.md R150, 42_compressor.md R176, 10_state.md R24). -/
def beginRounds (H : HashState) (B : Block) : Rounds where
  w := schedule B
  vars := loadVars H
  t := 0

/-- Round t on the internal round state; t then takes the next value, and never wraps around
(42_compressor.md R178, 10_state.md R24). -/
def Rounds.advance (r : Rounds) : Rounds :=
  { r with vars := roundAt r.w r.vars r.t, t := if r.t < 63 then r.t + 1 else r.t }

/-- The engine compresses one block: 64 rounds on W, a..h and t, each exactly once, then the
feed-forward into H (42_compressor.md R179, R180). -/
def Engine.compressBlock (e : Engine) (B : Block) : Engine :=
  let r := Rounds.advance^[64] (beginRounds e.h B)
  { e with rounds := r, h := feedForward e.h r.vars }

/-- engine_complete, one atomic step: PEND's blocks in order, then PEND <- [] and BUSY <- 0
(42_compressor.md R185). Afterwards W, a..h and t hold any value (93 I11). -/
def State.complete (s : State) : State :=
  let e' := s.e.pend.foldl Engine.compressBlock s.e
  ({ s with e := { e' with pend := [], busy := false } }).loseRounds

end Sys2Proof.Machine
end

