-- ==== Sys2Proof/Machine/Operands.lean ====
section
/-! DEFINITION. The operand forms: UPDATE's byte count and its data operand, the DATA register (spec/30_encoding.md rules R94, R95; spec/20_memory.md rule R65). -/

namespace Sys2Proof.Machine

/-- The data operand of UPDATE: the top `nb` bytes of DATA, most significant first; the bytes
beyond are ignored (30_encoding.md R95, 20_memory.md R65). -/
def dataBytes (data : Word) (nb : Nat) : List Byte := (bytes32 data).take nb

/-- The legal byte counts are 1, 2, 3 and 4 (30_encoding.md R94). -/
def nbLegal (nb : Nat) : Bool := decide (1 ≤ nb ∧ nb ≤ 4)

end Sys2Proof.Machine
end

