-- ==== Sys2Proof/Machine/Framer.lean ====
section
/-! DEFINITION. The Block Framer and padding generator, with its commands UPDATE and FINAL (spec/40_block_framer.md). -/

namespace Sys2Proof.Machine

/-- z = (55 − L) mod 64, 0 ≤ z ≤ 63 (40_block_framer.md R120), with 64 + 55 − (L mod 64) for the
natural number that is congruent to 55 − L. -/
def padZeros (L : Nat) : Nat := (119 - L % 64) % 64

/-- pad(M) = M ++ [0x80] ++ zeros(z) ++ be64bytes(8·L) (40_block_framer.md R120). -/
def pad (M : List Byte) : List Byte :=
  M ++ [0x80#8] ++ zeros (padZeros M.length) ++ be64bytes (8 * M.length)

/-- n(L) = floor((L + 8) / 64) + 1, the number of blocks of the padded message (40_block_framer.md R123). -/
def blockCount (L : Nat) : Nat := (L + 8) / 64 + 1

/-- tail(BUF, LEN), what FINAL pads with (40_block_framer.md R128). -/
def tail (buf : List Byte) (len : Nat) : List Byte :=
  buf ++ [0x80#8] ++ zeros (padZeros buf.length) ++ be64bytes (8 * len)

/-- The checks of UPDATE in their order: BUSY, SEQ, ARG, LEN (40_block_framer.md R131,
60_exceptions.md R238). -/
def updateError (nb : Nat) (e : Engine) : Option ErrCode :=
  if e.busy then some .busy
  else if e.phase ≠ .absorb then some .seq
  else if nbLegal nb = false then some .arg
  else if Config.lmax < e.len + nb then some .len
  else none

/-- The checks of FINAL in their order: BUSY, SEQ (40_block_framer.md R135, 60_exceptions.md R238). -/
def finalError (e : Engine) : Option ErrCode :=
  if e.busy then some .busy
  else if e.phase ≠ .absorb then some .seq
  else none

/-- The effect of an accepted UPDATE (40_block_framer.md R131): LEN grows by nb, S = BUF ++ bytes,
and a completed block goes to PEND with the rest in BUF. -/
def State.append (nb : Nat) (s : State) : State :=
  let S := s.e.buf ++ dataBytes s.e.data nb
  if 64 ≤ S.length then
    ({ s with e := { s.e with len := s.e.len + nb, buf := S.drop 64 } }).startWork [S.take 64]
  else
    { s with e := { s.e with len := s.e.len + nb, buf := S } }

/-- The effect of an accepted FINAL (40_block_framer.md R135). -/
def State.closeMessage (s : State) : State :=
  ({ s with e := { s.e with buf := [], phase := .done } }).startWork
    (blocks (tail s.e.buf s.e.len))

/-- UPDATE nb (40_block_framer.md R131). -/
def execUpdate (nb : Nat) (s : State) : Result :=
  match updateError nb s.e with
  | some code => .next (s.reject code)
  | none => .next (s.append nb)

/-- FINAL (40_block_framer.md R135). -/
def execFinal (s : State) : Result :=
  match finalError s.e with
  | some code => .next (s.reject code)
  | none => .next s.closeMessage

end Sys2Proof.Machine
end

