-- ==== Sys2Proof/Machine/Accumulator.lean ====
section
/-! DEFINITION. The digest state accumulator: the commands INIT, NOP and CLRERR, and the digest (spec/43_digest_accumulator.md). -/

namespace Sys2Proof.Machine

/-- The check of INIT: BUSY; there is no phase check (43_digest_accumulator.md R202). -/
def initError (e : Engine) : Option ErrCode :=
  if e.busy then some .busy else none

/-- INIT (43_digest_accumulator.md R202). -/
def execInit (s : State) : Result :=
  match initError s.e with
  | some code => .next (s.reject code)
  | none => .next s.startMessage

/-- NOP: no effect, accepted in every state (43_digest_accumulator.md R206). -/
def execNop (s : State) : Result := .next s

/-- CLRERR, accepted in every state (43_digest_accumulator.md R207). -/
def execClrerr (s : State) : Result := .next s.clearError

/-- digest_bytes(H): each word written big-endian, 32 bytes (43_digest_accumulator.md R210). -/
def digestBytes (H : HashState) : List Byte := H.words.flatMap bytes32

/-- The hash state after the last block of the padded message (43_digest_accumulator.md R210). -/
def digestState (M : List Byte) : HashState := fold iv (blocks (pad M))

/-- digest(M) = digest_bytes(fold(IV, blocks(pad(M)))) (43_digest_accumulator.md R210). -/
def digest (M : List Byte) : List Byte := digestBytes (digestState M)

end Sys2Proof.Machine
end

