-- ==== Sys2Proof/Machine/Dispatch.lean ====
section
/-! DEFINITION. One arm per command of spec/opcode_table.json, each a direct call of its meaning. -/

namespace Sys2Proof.Machine

/-- The effect of a command that was decoded (spec/30_encoding.md rule R93 names each one's rule). -/
def exec (i : Instr) (s : State) : Host.Outcome State Fault Refusal :=
  match i with
  | .nop => Sys2Proof.Machine.execNop s
  | .init => Sys2Proof.Machine.execInit s
  | .update nb => Sys2Proof.Machine.execUpdate nb s
  | .final => Sys2Proof.Machine.execFinal s
  | .clrerr => Sys2Proof.Machine.execClrerr s

end Sys2Proof.Machine
end

