-- ==== Sys2Proof/Machine/Flags.lean ====
section
/-! DEFINITION. The flags and the STATUS word the host reads them from (spec/10_state.md rules R30, R32, R33, R38, R43; spec/60_exceptions.md rule R231). -/

namespace Sys2Proof.Machine

/-- The 2-bit code of PHASE (10_state.md R30). -/
def Phase.code : Phase → BitVec 2
  | .idle => 0
  | .absorb => 1
  | .done => 2

/-- The 4-bit code of ERRCODE (60_exceptions.md R231). -/
def ErrCode.code : ErrCode → BitVec 4
  | .none => 0
  | .illegal => 1
  | .busy => 2
  | .seq => 3
  | .arg => 4
  | .len => 5

/-- BUFCNT = |BUF|, a 6-bit field (10_state.md R31, R38). -/
def Engine.bufCnt (e : Engine) : BitVec 6 := BitVec.ofNat 6 e.buf.length

/-- STATUS = zext_32(BUSY) | ERR<<1 | PHASE<<2 | ERRCODE<<4 | |BUF|<<8 (10_state.md R38). -/
def Engine.status (e : Engine) : Word :=
  (BitVec.ofBool e.busy).setWidth 32 |||
  ((BitVec.ofBool e.err).setWidth 32 <<< 1) |||
  ((e.phase.code).setWidth 32 <<< 2) |||
  ((e.errCode.code).setWidth 32 <<< 4) |||
  ((e.bufCnt).setWidth 32 <<< 8)

end Sys2Proof.Machine
end

