-- ==== Sys2Proof/Machine/Bus.lean ====
section
/-! DEFINITION. The register window, the host's accesses, and which agent moves next (spec/10_state.md section 4, spec/20_memory.md, spec/43_digest_accumulator.md rules R208, R209). -/

namespace Sys2Proof.Machine

/-- An address reaches the engine exactly when BASE ≤ A ≤ BASE + 0xFF (20_memory.md R61). -/
def inWindow (base addr : Nat) : Bool :=
  decide (base ≤ addr ∧ addr < base + Config.windowSize)

/-- LEN[31:0] (10_state.md R40). -/
def Engine.lenLo (e : Engine) : Word := BitVec.ofNat 32 e.len

/-- LEN[63:32] (10_state.md R40). -/
def Engine.lenHi (e : Engine) : Word := BitVec.ofNat 32 (e.len >>> 32)

/-- RegRead(off) (43_digest_accumulator.md R208); `draw` is the free word a DIGEST read returns
while BUSY = 1 (10_state.md R41). -/
def Engine.regRead (draw : Word) (e : Engine) (off : Nat) : Word :=
  if off = 0x00 then 0
  else if off = 0x04 then e.status
  else if off = 0x08 then e.data
  else if off = 0x10 then e.lenLo
  else if off = 0x14 then e.lenHi
  else if 0x20 ≤ off ∧ off < 0x40 then
    if e.busy then draw else e.h.word ((off - 0x20) / 4)
  else 0

/-- Issuing a command: the word is decoded, and accepted or rejected in the same step
(30_encoding.md R90); an illegal word is rejected with ILLEGAL in every state (R97). -/
def issue (w : Word) (s : State) : Result :=
  match decode w with
  | .ok i => exec i s
  | .error _ => .next (s.reject .illegal)

/-- RegWrite(off, v) (43_digest_accumulator.md R209). -/
def regWrite (off : Nat) (v : Word) (s : State) : Result :=
  if off = 0x00 then issue v s
  else if off = 0x08 then .next (s.writeData v)
  else .next s

/-- A host read. Outside the window it does not reach the engine (20_memory.md R61): what the
platform returns is a free word (notes/assumptions/10.md). In the window only an aligned 32-bit
access has a step (20_memory.md R62). -/
def busRead (addr size : Nat) (s : State) : Result :=
  if inWindow s.base addr = false then .next (s.giveHost (Config.freeWord s.base s.draws))
  else if size ≠ 4 then .fault (.wrongSize size)
  else if (addr - s.base) % 4 ≠ 0 then .fault (.misaligned (addr - s.base))
  else .next (s.giveHost (s.e.regRead (Config.freeWord s.base s.draws) (addr - s.base)))

/-- A host write. Outside the window it does not reach the engine (20_memory.md R61); in the window
only an aligned 32-bit access has a step (20_memory.md R62). -/
def busWrite (addr size : Nat) (v : Word) (s : State) : Result :=
  if inWindow s.base addr = false then .next s
  else if size ≠ 4 then .fault (.wrongSize size)
  else if (addr - s.base) % 4 ≠ 0 then .fault (.misaligned (addr - s.base))
  else regWrite (addr - s.base) v s

/-- `poll`, one turn of its loop: read STATUS, and stay as long as bit 0 is 1 (30_encoding.md R101). -/
def pollOnce (s : State) : Result :=
  let v := s.e.status
  if v &&& 1 = 0 then .next (s.giveHost v)
  else .next { s.giveHost v with queue := .poll :: s.queue }

/-- The effect of one host event. -/
def hostMove (ev : HostEvent) (s : State) : Result :=
  match ev with
  | .read addr size => busRead addr size s
  | .write addr size v => busWrite addr size v s
  | .poll => pollOnce s
  | .reset => .next s.platformReset

/-- The completion step is taken when work is pending and either its turn has come or the host has
nothing to do (20_memory.md R74, R79; notes/assumptions/4.md). -/
def completionTurn (s : State) : Bool :=
  s.e.busy && (s.queue.isEmpty || s.delay == 0)

/-- One atomic step of the interleaving (20_memory.md R74): the engine's completion step, or the
host's next event; with neither, the machine waits (60_exceptions.md R249). -/
def advance (s : State) : Result :=
  if completionTurn s then .next s.complete
  else
    match s.queue with
    | [] => .next s
    | ev :: rest => hostMove ev { s with queue := rest, delay := s.delay - 1 }

/-- `s` with the command word `w` as the host's very next access, before any pending completion:
the write to CMD stands first in the queue, and it is the host's turn. -/
def withCommand (w : Word) (s : State) : State :=
  { s with queue := .write s.base 4 w :: s.queue, delay := s.delay + 1 }

end Sys2Proof.Machine
end

