-- ==== Sys2Proof/Machine/Step.lean ====
section
/-! DEFINITION. One step of the machine, and the placing of a command word where the next step takes it from. -/

namespace Sys2Proof.Machine

/-- One atomic step (spec/20_memory.md rule R74). -/
def step (s : State) : Host.Outcome State Fault Refusal := advance s

/-- The command word `w` (its low `nbits` bits, the rest 0) as the very next host access, a write to
CMD (spec/30_encoding.md rule R90); see notes/assumptions/5.md. -/
def State.withFetchWord (s : State) (nbits w : Nat) : State :=
  withCommand (BitVec.ofNat 32 (w % 2 ^ nbits)) s

end Sys2Proof.Machine
end

