-- ==== Sys2Proof/Machine/HostProgram.lean ====
section
/-! DEFINITION. The host's notation: accesses, pseudo-operations and the program `hash M`, as host events (spec/30_encoding.md rules R100, R101). `b` is BASE throughout. -/

namespace Sys2Proof.Machine

/-- `wr OFF, v` (30_encoding.md R100). -/
def wr (b off : Nat) (v : Word) : HostEvent := .write (b + off) 4 v

/-- `rd rX, OFF` (30_encoding.md R100). -/
def rd (b off : Nat) : HostEvent := .read (b + off) 4

/-- `cmd <command>`: `wr CMD, <word of rule R99>` (30_encoding.md R100). -/
def cmd (b : Nat) (i : Instr) : HostEvent := wr b 0x00 (encode i)

/-- `upd n, v`: `data v`, `cmd UPDATE n`, `poll` (30_encoding.md R101). -/
def upd (b n : Nat) (v : Word) : List HostEvent := [wr b 0x08 v, cmd b (.update n), .poll]

/-- `init`: `poll`, `cmd INIT` (30_encoding.md R101). -/
def initProgram (b : Nat) : List HostEvent := [.poll, cmd b .init]

/-- `final`: `cmd FINAL`, `poll` (30_encoding.md R101). -/
def finalProgram (b : Nat) : List HostEvent := [cmd b .final, .poll]

/-- `rddig r0..r7` (30_encoding.md R101). -/
def rddig (b : Nat) : List HostEvent := (List.range 8).map fun i => rd b (0x20 + 4 * i)

/-- A group of at most four message bytes as the word whose top bytes they are, the bytes below 0
(30_encoding.md R101). -/
def groupWord (g : List Byte) : Word :=
  be32 (g.getD 0 0) (g.getD 1 0) (g.getD 2 0) (g.getD 3 0)

/-- One `upd` per group of message bytes: the message split into UPDATE commands in any way
(43_digest_accumulator.md R211). -/
def splitUpdates (b : Nat) (groups : List (List Byte)) : List HostEvent :=
  groups.flatMap fun g => upd b g.length (groupWord g)

/-- The groups of `hash M`: four bytes each, and one of the k remaining bytes if k ≠ 0
(30_encoding.md R101). -/
def fourByteGroups : List Byte → List (List Byte)
  | m0 :: m1 :: m2 :: m3 :: rest => [m0, m1, m2, m3] :: fourByteGroups rest
  | [] => []
  | rest => [rest]

/-- The host sequence that hashes the concatenation of the groups: INIT, the UPDATEs, FINAL, and
the reads of DIGEST0..7 (43_digest_accumulator.md R211). -/
def hashSplit (b : Nat) (groups : List (List Byte)) : List HostEvent :=
  initProgram b ++ splitUpdates b groups ++ finalProgram b ++ rddig b

/-- `hash M` (30_encoding.md R101). -/
def hashProgram (b : Nat) (M : List Byte) : List HostEvent := hashSplit b (fourByteGroups M)

end Sys2Proof.Machine
end

