-- ==== Sys2Proof/Machine/Instances.lean ====
section
/-! DEFINITION. N_INST engine instances side by side: each has its own copy of every field at its own BASE, and they share only the read-only tables (spec/10_state.md rule R47, spec/60_exceptions.md rule R247). -/

namespace Sys2Proof.Machine

/-- The instances, each with its host (60_exceptions.md R247: "One host drives an instance"). The
read-only tables K and IV are the constants `kTable` and `iv` that all of them use. -/
abbrev Instances := List State

/-- Instance `i` takes its next step; the others stand still. None where there is no such instance
or its step stops. -/
def Instances.stepOne (i : Nat) (is : Instances) : Option Instances :=
  match is[i]? with
  | none => none
  | some s =>
    match step s with
    | .next t => some (is.set i t)
    | .fault _ => none
    | .refused _ => none

/-- Every BASE is a multiple of 256, and no two instances have the same one (00_scope.md R8). -/
abbrev Instances.placed (is : Instances) : Prop :=
  (∀ s ∈ is, s.base % Config.windowSize = 0) ∧ (is.map State.base).Nodup

/-- All instances right after reset, each at its own BASE: "each comes out of reset independently"
(60_exceptions.md R247). Their counters of free values all start at 0, but each draws from the
sequence of its own BASE, so nothing relates one's free values to another's
(notes/assumptions/11.md). -/
def Instances.reset (bases : List Nat) : Instances := bases.map State.resetAt

end Sys2Proof.Machine
end

