-- ==== Sys2Proof/Safety.lean ====
section
/-! DEFINITION. What claims are stated in: the invariant of the reachable states (spec/10_state.md rule R35), the message an engine holds (spec/40_block_framer.md rule R133), and when its digest is ready (spec/70_reset_and_hazards.md rule R272). -/

namespace Sys2Proof.Machine

/-- (a) BUSY = 1 exactly when PEND ≠ [] (10_state.md R35). -/
abbrev Engine.busyIffPending (e : Engine) : Prop := e.busy = true ↔ e.pend ≠ []

/-- (b), (c), (d): what BUF, LEN and PEND are in each phase (10_state.md R35); in IDLE, H is still
what reset left (R48), since nothing that writes H happens there (R21). -/
abbrev Engine.phaseShape (e : Engine) : Prop :=
  (e.phase = .absorb → e.buf.length = e.len % 64) ∧
  (e.phase = .idle → e.len = 0 ∧ e.buf = [] ∧ e.pend = [] ∧ e.h = iv) ∧
  (e.phase = .done → e.buf = [])

/-- (e), and the other half: an error is recorded exactly when there is a code (10_state.md R33). -/
abbrev Engine.errorShape (e : Engine) : Prop := e.err = false ↔ e.errCode = .none

/-- (f): at most two blocks, two only after a FINAL with |BUF| ≥ 56, and that BUF held LEN mod 64
bytes (10_state.md R35); every block has 64 bytes (00_scope.md R16). -/
abbrev Engine.pendShape (e : Engine) : Prop :=
  e.pend.length ≤ 2 ∧
  (e.pend.length = 2 → e.phase = .done ∧ 56 ≤ e.len % 64) ∧
  ∀ B ∈ e.pend, B.length = 64

/-- The sizes of 10_state.md R20: |BUF| ≤ 63, LEN ≤ LMAX, 64 schedule words, t ≤ 63. -/
abbrev Engine.sizes (e : Engine) : Prop :=
  e.buf.length ≤ 63 ∧ e.len ≤ Config.lmax ∧ e.rounds.w.length = 64 ∧ e.rounds.t ≤ 63

/-- The invariant of 10_state.md R35 (a) to (f) with the sizes of R20. -/
abbrev Engine.Wf (e : Engine) : Prop :=
  e.busyIffPending ∧ e.phaseShape ∧ e.errorShape ∧ e.pendShape ∧ e.sizes

/-- The invariant of the machine: the engine's, and BASE is a multiple of 256 (00_scope.md R8). -/
abbrev State.Wf (s : State) : Prop := s.base % Config.windowSize = 0 ∧ s.e.Wf

/-- `M` is the message the engine holds: the bytes accepted since INIT, in command order
(40_block_framer.md R133). In ABSORB they are the bytes of the compressed blocks, of the pending
block and of BUF, and H is the state after the compressed blocks (10_state.md R35 (g)); in DONE, H
is the digest state of `M` once the pending blocks are folded in. -/
def Engine.Holds (M : List Byte) (e : Engine) : Prop :=
  M.length = e.len ∧
  match e.phase with
  | .idle => True
  | .absorb => ∃ past : List Byte,
      past.length % 64 = 0 ∧ M = past ++ e.pend.flatten ++ e.buf ∧ e.h = fold iv (blocks past)
  | .done => fold e.h e.pend = digestState M

/-- "The final digest is available exactly when STATUS reads PHASE = DONE and BUSY = 0"
(70_reset_and_hazards.md R272). -/
def Engine.digestReady (e : Engine) : Prop := e.phase = .done ∧ e.busy = false

/-- The host's next event is taken by the next step: no completion comes before it. -/
abbrev State.hostTurn (s : State) (ev : HostEvent) (rest : List HostEvent) : Prop :=
  s.queue = ev :: rest ∧ (s.e.busy = true → s.delay ≠ 0)

/-- `s` once its first event has been taken off the queue. -/
def State.taken (s : State) (rest : List HostEvent) : State :=
  { s with queue := rest, delay := s.delay - 1 }

/-- The two states' engines are equal but for the internal round state (10_state.md R44). -/
def Engine.sameVisible (e e' : Engine) : Prop := e' = { e with rounds := e'.rounds }

/-- The next step starts a new message, or drops the open one: an INIT that is accepted
(43_digest_accumulator.md R202), or the platform's reset (70_reset_and_hazards.md R260). -/
def State.beginsMessage (s : State) : Prop :=
  ∃ rest, (s.hostTurn (.write s.base 4 (encode .init)) rest ∧ s.e.busy = false) ∨
    s.hostTurn .reset rest

/-- The host's next event is a read whose word the spec leaves free: of DIGEST while BUSY = 1
(10_state.md R41), or of an address outside the window (20_memory.md R61). -/
def State.freeRead (s : State) : Prop :=
  ∃ addr size rest, s.queue = .read addr size :: rest ∧
    (inWindow s.base addr = false ∨
      (s.e.busy = true ∧ 0x20 ≤ addr - s.base ∧ addr - s.base < 0x40))

/-- An access in the window at `b` that is not an aligned 32-bit access (20_memory.md R62). -/
def HostEvent.unadmitted (b : Nat) : HostEvent → Prop
  | .read addr size | .write addr size _ =>
      inWindow b addr = true ∧ (size ≠ 4 ∨ (addr - b) % 4 ≠ 0)
  | .poll | .reset => False

/-- The commands that pass every check in a state of the engine (60_exceptions.md R238, the table of
checks; the conditions of 43_digest_accumulator.md R202, R206, R207 and 40_block_framer.md R131, R135). -/
abbrev Engine.accepts (e : Engine) : Instr → Prop
  | .nop => True
  | .init => e.busy = false
  | .update nb =>
      e.busy = false ∧ e.phase = .absorb ∧ (1 ≤ nb ∧ nb ≤ 4) ∧ e.len + nb ≤ 2 ^ 61 - 1
  | .final => e.busy = false ∧ e.phase = .absorb
  | .clrerr => True

/-- The words of 30_encoding.md R97, by the three fields as numbers: RSVD ≠ 0, or OP is 5 to 15, or
NB ≠ 0 with another OP than UPDATE's. -/
abbrev illegalWord (w : Word) : Prop :=
  w.toNat / 128 ≠ 0 ∨ 5 ≤ w.toNat % 16 ∨ (w.toNat % 16 ≠ 2 ∧ w.toNat / 16 % 8 ≠ 0)

/-- The next step is an UPDATE of `nb` bytes that is accepted (40_block_framer.md R131). -/
def State.appendsBytes (s : State) (nb : Nat) : Prop :=
  ∃ rest, s.hostTurn (.write s.base 4 (encode (.update nb))) rest ∧ s.e.accepts (.update nb)

/-- What a read of the window leaves to compare: the value at an offset, for any draw. -/
abbrev sameRead (e e' : Engine) (off : Nat) : Prop :=
  ∀ d : Word, Engine.regRead d e' off = Engine.regRead d e off

/-- An offset of DIGEST0..DIGEST7 (10_state.md R36). -/
abbrev digestOffset (off : Nat) : Prop := 0x20 ≤ off ∧ off < 0x40

end Sys2Proof.Machine
end

