-- ==== Sys2Proof/Certificates/Slice0/Obligations.lean ====
section
/-! DEFINITION. The statements for the provers: what the spec's numbered rules say the engine does. -/

open Sys2Proof Sys2Proof.Machine

/-! Encoding (spec/30_encoding.md) -/

/-- 30_encoding.md R99: the table of words, the formula `word = OP | (NB << 4)` (the two fields do
not overlap, so it is their sum), and the four words that decode as UPDATE with an illegal count. -/
def Obligations.CommandWordsAreTheTable : Prop :=
  (encode .nop = 0x00000000#32 ∧ encode .init = 0x00000001#32 ∧
    encode (.update 1) = 0x00000012#32 ∧ encode (.update 2) = 0x00000022#32 ∧
    encode (.update 3) = 0x00000032#32 ∧ encode (.update 4) = 0x00000042#32 ∧
    encode .final = 0x00000003#32 ∧ encode .clrerr = 0x00000004#32) ∧
  (∀ i : Instr, i.wellFormed = true → (encode i).toNat = opcode i + 16 * nbOperand i) ∧
  (decode 0x00000002#32 = .ok (.update 0) ∧ decode 0x00000052#32 = .ok (.update 5) ∧
    decode 0x00000062#32 = .ok (.update 6) ∧ decode 0x00000072#32 = .ok (.update 7))

/-- 95_test_vectors.md V16 (30_encoding.md R93 to R98): words written out from the encoding, and the
command or the ILLEGAL class each decodes to. -/
def Obligations.WrittenWordsDecode : Prop :=
  decode 0x00000000#32 = .ok .nop ∧ decode 0x00000001#32 = .ok .init ∧
  decode 0x00000042#32 = .ok (.update 4) ∧ decode 0x00000003#32 = .ok .final ∧
  decode 0x00000004#32 = .ok .clrerr ∧ decode 0x00000005#32 = .error .reservedOp ∧
  decode 0x0000000f#32 = .error .reservedOp ∧ decode 0x00000013#32 = .error .nbOutsideUpdate ∧
  decode 0x00000080#32 = .error .reservedBits ∧ decode 0x80000002#32 = .error .reservedBits ∧
  decode 0x00000142#32 = .error .reservedBits ∧ decode 0xffffffff#32 = .error .reservedBits

/-- 30_encoding.md R97: a word is illegal exactly by the three clauses, and issuing an illegal word
rejects it with ILLEGAL in every state (BUSY = 1 among them), with no other effect. -/
def Obligations.IllegalWordsAreRejected : Prop :=
  ∀ w : Word,
    ((∃ x, decode w = .error x) ↔ illegalWord w) ∧
    (illegalWord w → ∀ s : State,
      issue w s = .next { s with e := { s.e with
        err := true
        errCode := if s.e.err then s.e.errCode else .illegal } })

/-- Decoding and encoding agree in both directions (30_encoding.md R91, R96, R99): a word decodes to
a command exactly when the command fits the format and the word is its encoding. So decoding the
encoding of any well-formed command, UPDATE with every count 0 to 7 among them, gives it back, and
no two words are the same command. -/
def Obligations.DecodeInvertsEncode : Prop :=
  ∀ (w : Word) (i : Instr), decode w = .ok i ↔ (i.wellFormed = true ∧ encode i = w)

/-- 30_encoding.md R90, R96: when the host's next event is a write of `w` to CMD and `w` decodes to a
command, the step is `exec` of it. What stands around it is the model's choice and no rule of the
spec: that the event is taken off a queue (notes/assumptions/5.md) and counted against `delay`
(notes/assumptions/4.md), and the whole second clause, that a word placed by `withFetchWord` is the
very next event and the step is then `exec` on the state it was placed in (notes/assumptions/5.md). -/
def Obligations.StepRunsTheDecodedCommand : Prop :=
  (∀ (s : State) (rest : List HostEvent) (w : Word) (i : Instr),
    s.hostTurn (.write s.base 4 w) rest → decode w = .ok i →
    step s = exec i { s with queue := rest, delay := s.delay - 1 }) ∧
  (∀ (s : State) (n w : Nat) (i : Instr),
    decode (BitVec.ofNat 32 (w % 2 ^ n)) = .ok i → step (s.withFetchWord n w) = exec i s)

/-! The commands: result and completion (spec/40_block_framer.md, spec/43_digest_accumulator.md) -/

/-- 43_digest_accumulator.md R206: NOP, word 0x00000000, is accepted in every state and writes no
state and no flag; STATUS is unchanged. -/
def Obligations.NopWritesNothing : Prop :=
  encode .nop = 0x00000000#32 ∧
  (∀ s : State, exec .nop s = .next s) ∧
  (∀ s : State, ∃ t, issue 0x00000000#32 s = .next t ∧ t.e.status = s.e.status)

/-- 43_digest_accumulator.md R207: CLRERR, word 0x00000004, is accepted in every state and clears ERR and ERRCODE and
nothing else; with no error recorded (ERRCODE = 0 too) it has no effect; a CLRERR word with
reserved bits set is rejected with ILLEGAL; and the example. -/
def Obligations.ClrerrClearsTheErrorRecord : Prop :=
  encode .clrerr = 0x00000004#32 ∧
  (∀ s : State, exec .clrerr s = .next { s with e := { s.e with err := false, errCode := .none } }) ∧
  (∀ s : State, s.e.err = false → s.e.errCode = .none → exec .clrerr s = .next s) ∧
  (∀ (s : State) (w : Word), w.toNat % 16 = 4 → w.toNat / 128 ≠ 0 → s.e.err = false →
    issue w s = .next { s with e := { s.e with err := true, errCode := .illegal } }) ∧
  (∀ s : State, s.e.status = 0x00000032#32 →
    ∃ t, exec .clrerr s = .next t ∧ t.e.status = 0x00000000#32)

/-- 43_digest_accumulator.md R202: with BUSY = 1 INIT is rejected with BUSY; otherwise, in every
phase, H <- IV, LEN <- 0, BUF <- [], PHASE <- ABSORB and nothing else; and the example. -/
def Obligations.InitStartsAMessage : Prop :=
  encode .init = 0x00000001#32 ∧
  (∀ s : State, s.e.busy = true → exec .init s = .next (s.reject .busy)) ∧
  (∀ s : State, s.e.busy = false →
    exec .init s =
      .next { s with e := { s.e with h := iv, len := 0, buf := [], phase := .absorb } }) ∧
  (∃ t, exec .init State.reset = .next t ∧ t.e.phase = .absorb ∧
    t.e.status = 0x00000004#32 ∧ ∀ d, Engine.regRead d t.e 0x20 = 0x6a09e667#32)

/-- 40_block_framer.md R131: the checks of UPDATE in their order, each with its error code, and the
effect when accepted: a block is completed when BUF and the bytes reach 64 bytes, and otherwise
BUF grows; and the example. H, PHASE, DATA, ERR and ERRCODE are not written. Of W, a..h and t the
rule says nothing, nor does this (93 I11). -/
def Obligations.UpdateFollowsItsRule : Prop :=
  (∀ nb, nb < 8 → encode (.update nb) = 0x00000002#32 ||| (BitVec.ofNat 32 nb <<< 4)) ∧
  (∀ (s : State) (nb : Nat),
    (s.e.busy = true → exec (.update nb) s = .next (s.reject .busy)) ∧
    (s.e.busy = false → s.e.phase ≠ .absorb → exec (.update nb) s = .next (s.reject .seq)) ∧
    (s.e.busy = false → s.e.phase = .absorb → ¬ (1 ≤ nb ∧ nb ≤ 4) →
      exec (.update nb) s = .next (s.reject .arg)) ∧
    (s.e.busy = false → s.e.phase = .absorb → 1 ≤ nb ∧ nb ≤ 4 → 2 ^ 61 - 1 < s.e.len + nb →
      exec (.update nb) s = .next (s.reject .len))) ∧
  (∀ (s : State) (nb : Nat) (S : List Byte), s.e.accepts (.update nb) →
    S = s.e.buf ++ [s.e.data.extractLsb' 24 8, s.e.data.extractLsb' 16 8,
      s.e.data.extractLsb' 8 8, s.e.data.extractLsb' 0 8].take nb →
    (S.length < 64 →
      ∃ t, exec (.update nb) s = .next t ∧
        t.e = { s.e with len := s.e.len + nb, buf := S, rounds := t.e.rounds } ∧
        t.base = s.base ∧ t.queue = s.queue ∧ t.returned = s.returned) ∧
    (64 ≤ S.length →
      ∃ t, exec (.update nb) s = .next t ∧
        t.e = { s.e with
          len := s.e.len + nb, pend := [S.take 64], buf := S.drop 64, busy := true
          rounds := t.e.rounds } ∧
        t.base = s.base ∧ t.queue = s.queue ∧ t.returned = s.returned)) ∧
  (∀ s : State, s.e.accepts (.update 3) → s.e.buf = [] → s.e.len = 0 → s.e.err = false →
    s.e.errCode = .none → s.e.data = 0x61626300#32 →
    ∃ t, exec (.update 3) s = .next t ∧ t.e.buf = [0x61#8, 0x62#8, 0x63#8] ∧ t.e.len = 3 ∧
      t.e.busy = false ∧ t.e.status = 0x00000304#32)

/-- 40_block_framer.md R132 (a) to (f): a straddling block, an exact fill, at most one block, the
ignored bytes of DATA, a rejected UPDATE, and the boundary at LMAX. Clause (d) compares two runs and
says nothing of their W, a..h and t (93 I11). -/
def Obligations.UpdateCornerCases : Prop :=
  (∀ s : State, s.e.accepts (.update 4) → s.e.buf.length = 62 →
    ∃ t, exec (.update 4) s = .next t ∧ t.e.busy = true ∧
      t.e.pend = [s.e.buf ++ [s.e.data.extractLsb' 24 8, s.e.data.extractLsb' 16 8]] ∧
      t.e.buf = [s.e.data.extractLsb' 8 8, s.e.data.extractLsb' 0 8]) ∧
  (∀ s : State, s.e.accepts (.update 4) → s.e.buf.length = 60 →
    ∃ t, exec (.update 4) s = .next t ∧ t.e.busy = true ∧ t.e.buf = []) ∧
  (∀ (s : State) (nb : Nat), s.e.accepts (.update nb) → s.e.buf.length ≤ 63 →
    ∃ t, exec (.update nb) s = .next t ∧ t.e.buf.length ≤ 63 ∧
      (t.e.pend = s.e.pend ∨ t.e.pend.length = 1)) ∧
  (∀ (s : State) (nb : Nat) (d : Word), s.e.accepts (.update nb) →
    d >>> (8 * (4 - nb)) = s.e.data >>> (8 * (4 - nb)) →
    ∃ t t', exec (.update nb) s = .next t ∧
      exec (.update nb) { s with e := { s.e with data := d } } = .next t' ∧
      t'.e = { t.e with data := d, rounds := t'.e.rounds }) ∧
  (∀ (s : State) (nb : Nat), ¬ s.e.accepts (.update nb) →
    ∃ t, exec (.update nb) s = .next t ∧ t.e.len = s.e.len ∧ t.e.buf = s.e.buf) ∧
  (∀ s : State, s.e.busy = false → s.e.phase = .absorb → s.e.len = 2 ^ 61 - 1 - 2 →
    exec (.update 3) s = .next (s.reject .len) ∧
    ∃ t, exec (.update 2) s = .next t ∧ t.e.len = 2 ^ 61 - 1 ∧ t.e.err = s.e.err)

/-- 20_memory.md R65: the bytes an accepted UPDATE appends are DATA[31:24], DATA[23:16], DATA[15:8],
DATA[7:0] in that order, as many as NB says, at the end of BUF; where they fill the block, the block
and what is left of them follow each other. After `DATA <- be32(m0,m1,m2,m3)` they are m0, m1, m2,
m3. -/
def Obligations.UpdateAppendsBytesInOrder : Prop :=
  (∀ (s : State) (nb : Nat), s.e.accepts (.update nb) →
    ∃ t, exec (.update nb) s = .next t ∧
      (if s.e.buf.length + nb < 64 then t.e.buf else t.e.pend.flatten ++ t.e.buf) =
        s.e.buf ++ [s.e.data.extractLsb' 24 8, s.e.data.extractLsb' 16 8,
          s.e.data.extractLsb' 8 8, s.e.data.extractLsb' 0 8].take nb) ∧
  (∀ m0 m1 m2 m3 : Byte, ∀ d : Word, d = be32 m0 m1 m2 m3 →
    [d.extractLsb' 24 8, d.extractLsb' 16 8, d.extractLsb' 8 8, d.extractLsb' 0 8] =
      [m0, m1, m2, m3])

/-- 40_block_framer.md R135: the checks of FINAL in their order, and the effect when accepted; LEN, H
and the error record are not written, and nothing is said of W, a..h and t (93 I11); and the example
(the "abc" block, as its 64 bytes). -/
def Obligations.FinalFollowsItsRule : Prop :=
  encode .final = 0x00000003#32 ∧
  (∀ s : State,
    (s.e.busy = true → exec .final s = .next (s.reject .busy)) ∧
    (s.e.busy = false → s.e.phase ≠ .absorb → exec .final s = .next (s.reject .seq))) ∧
  (∀ s : State, s.e.accepts .final →
    ∃ t, exec .final s = .next t ∧
      t.e = { s.e with
        pend := blocks (tail s.e.buf s.e.len), buf := [], phase := .done, busy := true
        rounds := t.e.rounds } ∧
      t.base = s.base ∧ t.queue = s.queue ∧ t.returned = s.returned) ∧
  (∀ s : State, s.e.accepts .final → s.e.buf = [0x61#8, 0x62#8, 0x63#8] → s.e.len = 3 →
    s.e.err = false → s.e.errCode = .none →
    ∃ t, exec .final s = .next t ∧
      t.e.pend = [[0x61#8, 0x62#8, 0x63#8, 0x80#8] ++ zeros 59 ++ [0x18#8]] ∧
      t.e.phase = .done ∧ t.e.busy = true ∧ t.e.status = 0x00000009#32)

/-- 40_block_framer.md R124 and R136 (a) to (e): the tail blocks FINAL places in PEND, byte for byte,
one block for |BUF| ≤ 55 and two for 56 ≤ |BUF| ≤ 63. -/
def Obligations.FinalPlacesTheTailBlocks : Prop :=
  ∀ s : State, s.e.accepts .final → s.e.buf.length ≤ 63 →
    ∃ t, exec .final s = .next t ∧
      (s.e.buf.length ≤ 55 →
        t.e.pend = [s.e.buf ++ [0x80#8] ++ zeros (55 - s.e.buf.length) ++
          be64bytes (8 * s.e.len)]) ∧
      (56 ≤ s.e.buf.length →
        t.e.pend = [s.e.buf ++ [0x80#8] ++ zeros (63 - s.e.buf.length),
          zeros 56 ++ be64bytes (8 * s.e.len)])

/-! Rejection (spec/60_exceptions.md) -/

/-- 60_exceptions.md R236: reject(code) sets ERR and ERRCODE when ERR = 0, and changes nothing when
ERR = 1. -/
def Obligations.RejectKeepsTheFirstError : Prop :=
  ∀ (s : State) (code : ErrCode),
    (s.e.err = false →
      s.reject code = { s with e := { s.e with err := true, errCode := code } }) ∧
    (s.e.err = true → s.reject code = s)

/-- 60_exceptions.md R230, R236, R241: a command that is not accepted answers a next state in which at
most ERR and ERRCODE differ, the first error kept. -/
def Obligations.RejectedCommandsOnlyRecord : Prop :=
  ∀ (i : Instr) (s : State), ¬ s.e.accepts i →
    ∃ code : ErrCode, code ≠ .none ∧
      exec i s = .next { s with e := { s.e with
        err := true
        errCode := if s.e.err then s.e.errCode else code } }

/-- 60_exceptions.md R232 to R235, R237, R238: which error a written command word records in a state
with no error, in the priority ILLEGAL, BUSY, SEQ, ARG, LEN. -/
def Obligations.ErrorPriority : Prop :=
  ∀ (s : State) (w : Word), s.e.err = false →
    ∃ t, issue w s = .next t ∧
      (illegalWord w → t.e.err = true ∧ t.e.errCode = .illegal) ∧
      (¬ illegalWord w → w.toNat % 16 = 0 ∨ w.toNat % 16 = 4 → t.e.err = false) ∧
      (¬ illegalWord w → w.toNat % 16 = 1 ∨ w.toNat % 16 = 2 ∨ w.toNat % 16 = 3 →
        s.e.busy = true → t.e.err = true ∧ t.e.errCode = .busy) ∧
      (¬ illegalWord w → w.toNat % 16 = 1 → s.e.busy = false → t.e.err = false) ∧
      (¬ illegalWord w → w.toNat % 16 = 2 ∨ w.toNat % 16 = 3 → s.e.busy = false →
        s.e.phase ≠ .absorb → t.e.err = true ∧ t.e.errCode = .seq) ∧
      (¬ illegalWord w → w.toNat % 16 = 3 → s.e.busy = false → s.e.phase = .absorb →
        t.e.err = false) ∧
      (¬ illegalWord w → w.toNat % 16 = 2 → s.e.busy = false → s.e.phase = .absorb →
        ¬ (1 ≤ w.toNat / 16 % 8 ∧ w.toNat / 16 % 8 ≤ 4) → t.e.err = true ∧ t.e.errCode = .arg) ∧
      (¬ illegalWord w → w.toNat % 16 = 2 → s.e.busy = false → s.e.phase = .absorb →
        1 ≤ w.toNat / 16 % 8 ∧ w.toNat / 16 % 8 ≤ 4 →
        if 2 ^ 61 - 1 < s.e.len + w.toNat / 16 % 8
        then t.e.err = true ∧ t.e.errCode = .len else t.e.err = false)

/-! Frames -/

/-- What no command changes (40_block_framer.md R130, 10_state.md R21, R28): BASE, DATA, the events
still to come and the values already returned; and H, but for INIT. That the internal round state
stays too, but where the command sets BUSY, is the model's choice and no rule of the spec: R44 and
93 I11 leave W, a..h and t any value (notes/assumptions/8.md). -/
def Obligations.CommandsLeaveTheirFrame : Prop :=
  ∀ (i : Instr) (s t : State), exec i s = .next t →
    t.base = s.base ∧ t.queue = s.queue ∧ t.returned = s.returned ∧
    t.e.data = s.e.data ∧ (i ≠ .init → t.e.h = s.e.h) ∧
    (t.e.busy = s.e.busy → t.e.rounds = s.e.rounds)

/-- The frame of NOP and CLRERR (43_digest_accumulator.md R206, R207): every register of the window
but STATUS reads as before; BUSY, PHASE, BUF and PEND are unchanged. -/
def Obligations.NopAndClrerrFrame : Prop :=
  ∀ (i : Instr) (s t : State), i = .nop ∨ i = .clrerr → exec i s = .next t →
    (∀ off, off ≠ 0x04 → sameRead s.e t.e off) ∧
    t.e.busy = s.e.busy ∧ t.e.phase = s.e.phase ∧ t.e.buf = s.e.buf ∧ t.e.pend = s.e.pend ∧
    (i = .nop → t.e.err = s.e.err ∧ t.e.errCode = s.e.errCode)

/-- The frame of INIT (43_digest_accumulator.md R202, R203): every register but STATUS, LEN and DIGEST
reads as before; BUSY and PEND are unchanged, and so is the error record when it is accepted; a
rejected INIT changes only the error record. -/
def Obligations.InitFrame : Prop :=
  ∀ s t : State, exec .init s = .next t →
    (∀ off, off ≠ 0x04 → off ≠ 0x10 → off ≠ 0x14 → ¬ digestOffset off → sameRead s.e t.e off) ∧
    t.e.busy = s.e.busy ∧ t.e.pend = s.e.pend ∧
    (s.e.busy = false → t.e.err = s.e.err ∧ t.e.errCode = s.e.errCode) ∧
    (s.e.busy = true → t.e = { s.e with err := t.e.err, errCode := t.e.errCode })

/-- The frame of UPDATE (40_block_framer.md R130, R131): every register but STATUS and LEN reads as
before, DIGEST too unless BUSY was set; PHASE and H are unchanged, and so is the error record when
it is accepted; a rejected UPDATE changes only the error record. -/
def Obligations.UpdateFrame : Prop :=
  ∀ (nb : Nat) (s t : State), exec (.update nb) s = .next t →
    (∀ off, off ≠ 0x04 → off ≠ 0x10 → off ≠ 0x14 →
      (¬ digestOffset off ∨ t.e.busy = s.e.busy) → sameRead s.e t.e off) ∧
    t.e.phase = s.e.phase ∧ t.e.h = s.e.h ∧
    (s.e.accepts (.update nb) → t.e.err = s.e.err ∧ t.e.errCode = s.e.errCode) ∧
    (¬ s.e.accepts (.update nb) → t.e = { s.e with err := t.e.err, errCode := t.e.errCode })

/-- The frame of FINAL (40_block_framer.md R130, R135): every register but STATUS reads as before,
DIGEST too unless BUSY was set; LEN and H are unchanged, and so is the error record when it is
accepted; a rejected FINAL changes only the error record. -/
def Obligations.FinalFrame : Prop :=
  ∀ s t : State, exec .final s = .next t →
    (∀ off, off ≠ 0x04 → (¬ digestOffset off ∨ t.e.busy = s.e.busy) → sameRead s.e t.e off) ∧
    t.e.len = s.e.len ∧ t.e.h = s.e.h ∧
    (s.e.accepts .final → t.e.err = s.e.err ∧ t.e.errCode = s.e.errCode) ∧
    (¬ s.e.accepts .final → t.e = { s.e with err := t.e.err, errCode := t.e.errCode })

/-! The register window (spec/10_state.md section 4, spec/20_memory.md) -/

/-- 43_digest_accumulator.md R208, 10_state.md R37 to R42: what an admitted read of each offset
returns, and that it changes nothing of the engine. While BUSY = 1 nothing is said of the value of
a DIGEST read (R41). -/
def Obligations.ReadsReturnTheRegisters : Prop :=
  ∀ (s : State) (rest : List HostEvent) (off : Nat), off < 256 → off % 4 = 0 →
    s.hostTurn (.read (s.base + off) 4) rest →
    ∃ t v, step s = .next t ∧ t.e = s.e ∧ t.base = s.base ∧ t.queue = rest ∧
      t.returned = v :: s.returned ∧
      (off = 0x00 → v = 0) ∧
      (off = 0x04 → v = s.e.status) ∧
      (off = 0x08 → v = s.e.data) ∧
      (off = 0x10 → v.toNat = s.e.len % 2 ^ 32) ∧
      (off = 0x14 → v.toNat = s.e.len / 2 ^ 32 % 2 ^ 32) ∧
      (s.e.busy = false →
        (off = 0x20 → v = s.e.h.h0) ∧ (off = 0x24 → v = s.e.h.h1) ∧
        (off = 0x28 → v = s.e.h.h2) ∧ (off = 0x2c → v = s.e.h.h3) ∧
        (off = 0x30 → v = s.e.h.h4) ∧ (off = 0x34 → v = s.e.h.h5) ∧
        (off = 0x38 → v = s.e.h.h6) ∧ (off = 0x3c → v = s.e.h.h7)) ∧
      (off = 0x0c ∨ off = 0x18 ∨ off = 0x1c ∨ 0x40 ≤ off → v = 0)

/-- 43_digest_accumulator.md R209, 20_memory.md R71: an admitted write to CMD issues the command, one
to DATA sets DATA only, and every other write is ignored. -/
def Obligations.WritesReachOnlyCmdAndData : Prop :=
  ∀ (s : State) (rest : List HostEvent) (off : Nat) (v : Word), off < 256 → off % 4 = 0 →
    s.hostTurn (.write (s.base + off) 4 v) rest →
    (off = 0x00 → step s = issue v (s.taken rest)) ∧
    (off = 0x08 → step s = .next { s.taken rest with e := { s.e with data := v } }) ∧
    (off ≠ 0x00 → off ≠ 0x08 → step s = .next (s.taken rest))

/-- 10_state.md R38: the fields of STATUS, as the number they make; the reserved bits 31:14 are 0,
PHASE is never 3 (R30) and ERRCODE never above 5 (60_exceptions.md R231), in every state. -/
def Obligations.StatusWordFields : Prop :=
  ∀ e : Engine,
    (e.buf.length ≤ 63 →
      e.status.toNat = e.busy.toNat + 2 * e.err.toNat + 4 * e.phase.code.toNat +
        16 * e.errCode.code.toNat + 256 * e.buf.length) ∧
    e.status.toNat / 2 ^ 14 = 0 ∧ e.status.toNat / 4 % 4 ≠ 3 ∧ e.status.toNat / 16 % 16 ≤ 5

/-- 10_state.md R39: a word written to DATA reads back, in every state, BUSY = 1 among them; a
completion step may come between the two accesses (notes/assumptions/4.md). -/
def Obligations.DataReadsBack : Prop :=
  ∀ (s : State) (rest : List HostEvent) (v : Word),
    s.hostTurn (.write (s.base + 0x08) 4 v) (.read (s.base + 0x08) 4 :: rest) →
    ∃ n t, n ≤ 3 ∧ Host.Core.run core n s = .next t ∧
      t.queue = rest ∧ t.returned = v :: s.returned ∧ t.e.data = v

/-- 20_memory.md R62: an access in the window that is not a 32-bit access at a multiple of 4 has no
step. R62 names no reason: that the two faults have these names, and that the size is looked at
first, is the model's choice (notes/assumptions/9.md). -/
def Obligations.UnadmittedAccessesAreStuck : Prop :=
  ∀ (s : State) (rest : List HostEvent) (addr size : Nat) (v : Word),
    s.base ≤ addr → addr ≤ s.base + 0xff →
    s.hostTurn (.read addr size) rest ∨ s.hostTurn (.write addr size v) rest →
    (size ≠ 4 → step s = .fault (.wrongSize size)) ∧
    (size = 4 → (addr - s.base) % 4 ≠ 0 → step s = .fault (.misaligned (addr - s.base)))

/-- 20_memory.md R61: an access outside the window does not reach the engine. That the run goes on,
with a free word for a read, is the model's choice (notes/assumptions/10.md). -/
def Obligations.OutsideTheWindowIsNotTheEngine : Prop :=
  ∀ (s : State) (rest : List HostEvent) (addr size : Nat) (v : Word),
    addr < s.base ∨ s.base + 0xff < addr →
    (s.hostTurn (.write addr size v) rest → step s = .next (s.taken rest)) ∧
    (s.hostTurn (.read addr size) rest →
      ∃ t r, step s = .next t ∧ t.e = s.e ∧ t.queue = rest ∧ t.returned = r :: s.returned)

/-! The completion step, ordering and reset -/

/-- 42_compressor.md R175 to R181: the engine's own round loop on W, a..h and t gives the pure function
compress(H, B), and touches nothing but H and the internal round state. What compress is: the working
variables start as (H[0], ..., H[7]) (R176), rounds 0 to 63 follow in order (R179), and each word of
the result is the word of H plus its working variable (R180); and the worked example of R181. -/
def Obligations.RoundLoopComputesCompress : Prop :=
  (∀ (e : Engine) (B : Block),
    e.compressBlock B =
      { e with h := compress e.h B, rounds := (e.compressBlock B).rounds } ∧
    (e.compressBlock B).rounds.w = schedule B ∧ (e.compressBlock B).rounds.t = 63) ∧
  (∀ (H : HashState) (B : Block) (v : Working),
    v = (List.range 64).foldl (roundAt (schedule B))
      { a := H.h0, b := H.h1, c := H.h2, d := H.h3, e := H.h4, f := H.h5, g := H.h6, h := H.h7 } →
    compress H B =
      { h0 := H.h0 + v.a, h1 := H.h1 + v.b, h2 := H.h2 + v.c, h3 := H.h3 + v.d
        h4 := H.h4 + v.e, h5 := H.h5 + v.f, h6 := H.h6 + v.g, h7 := H.h7 + v.h }) ∧
  compress iv (pad [0x61#8, 0x62#8, 0x63#8]) =
    { h0 := 0xba7816bf#32, h1 := 0x8f01cfea#32, h2 := 0x414140de#32, h3 := 0x5dae2223#32
      h4 := 0xb00361a3#32, h5 := 0x96177a9c#32, h6 := 0xb410ff61#32, h7 := 0xf20015ad#32 }

/-- 42_compressor.md R185: while BUSY = 1 and it is the engine's turn (which turn it is, is settled by
notes/assumptions/4.md), the step is H <- fold(H, PEND),
PEND <- [], BUSY <- 0 and nothing else the host can see; the internal round state then holds any
value (93 I11), of which nothing is said. With BUSY = 0 there is no completion step: with no host
event either the machine waits and every field keeps its value (60_exceptions.md R249). -/
def Obligations.CompletionFoldsThePendingBlocks : Prop :=
  (∀ s : State, s.e.busy = true → (s.queue = [] ∨ s.delay = 0) →
    ∃ t, step s = .next t ∧
      t.e = { s.e with
        h := fold s.e.h s.e.pend, pend := [], busy := false, rounds := t.e.rounds } ∧
      t.base = s.base ∧ t.queue = s.queue ∧ t.returned = s.returned) ∧
  (∀ s : State, s.e.busy = false → s.queue = [] → step s = .next s)

/-- 20_memory.md R79: while BUSY = 1 the completion step is taken after finitely many steps, with H the
fold over PEND as it stands now, unless before it the platform resets the engine or the host makes an
access that has no step (R62). R79 says only 'finitely many': the bound by `delay` is the model's
choice (notes/assumptions/4.md). -/
def Obligations.CompletionComes : Prop :=
  ∀ s : State, s.e.busy = true →
    ∃ n, n ≤ s.delay + 1 ∧
      ((∃ t, Host.Core.run core n s = .next t ∧ t.e.busy = false ∧ t.e.pend = [] ∧
          t.e.h = fold s.e.h s.e.pend ∧ t.e.phase = s.e.phase ∧ t.e.len = s.e.len ∧
          t.e.buf = s.e.buf) ∨
        (HostEvent.reset ∈ s.queue ∧ ∃ t, Host.Core.run core n s = .next t ∧
          t.e = { Engine.reset with rounds := t.e.rounds }) ∨
        ((∃ ev ∈ s.queue, ev.unadmitted s.base) ∧ ∃ f, Host.Core.run core n s = .fault f))

/-- 70_reset_and_hazards.md R281, 30_encoding.md R101: every poll ends, with BUSY = 0 and the pending
blocks folded into H, and leaves everything else the host can see. That a poll is one host event
(notes/assumptions/6.md) and the bound by `delay` (notes/assumptions/4.md) are the model's choices;
R281 says only that it ends. -/
def Obligations.EveryPollEnds : Prop :=
  ∀ (s : State) (rest : List HostEvent), s.queue = .poll :: rest →
    ∃ n t, n ≤ s.delay + 2 ∧ Host.Core.run core n s = .next t ∧ t.queue = rest ∧
      t.base = s.base ∧
      (s.e.busy = true → t.e = { s.e with
        h := fold s.e.h s.e.pend, pend := [], busy := false, rounds := t.e.rounds }) ∧
      (s.e.busy = false → t.e = s.e)

/-- 70_reset_and_hazards.md R270, 93 I16: a command that sets BUSY on acceptance or INIT, written with
no poll while work is pending, has two outcomes. Where the completion has its turn first, the
command is still to come and is then not rejected for BUSY; where the command comes first, it is
rejected with BUSY. That `delay` says which it is, is the model's choice (notes/assumptions/4.md). -/
def Obligations.UnpolledCommandHasTwoOutcomes : Prop :=
  ∀ (s : State) (rest : List HostEvent) (i : Instr) (w : Word),
    s.e.busy = true → decode w = .ok i → i ≠ .nop → i ≠ .clrerr →
    s.queue = .write s.base 4 w :: rest →
    (s.delay = 0 →
      ∃ t, step s = .next t ∧ t.e.busy = false ∧ t.queue = s.queue ∧
        step t = exec i (t.taken rest)) ∧
    (s.delay ≠ 0 → step s = .next ((s.taken rest).reject .busy))

/-- 10_state.md R48, 70_reset_and_hazards.md R262: the register values right after reset, and the state
behind them. -/
def Obligations.ResetValues : Prop :=
  Engine.status State.reset.e = 0x00000000#32 ∧
  (∀ d, Engine.regRead d State.reset.e 0x08 = 0x00000000#32 ∧
    Engine.regRead d State.reset.e 0x10 = 0x00000000#32 ∧
    Engine.regRead d State.reset.e 0x14 = 0x00000000#32 ∧
    (List.range 8).map (fun i => Engine.regRead d State.reset.e (0x20 + 4 * i)) =
      [0x6a09e667#32, 0xbb67ae85#32, 0x3c6ef372#32, 0xa54ff53a#32,
       0x510e527f#32, 0x9b05688c#32, 0x1f83d9ab#32, 0x5be0cd19#32]) ∧
  State.reset.e.phase = .idle ∧ State.reset.e.buf = [] ∧ State.reset.e.pend = []

/-- 70_reset_and_hazards.md R260: a platform reset puts every field of the engine at its reset value,
in every state, discarding pending work without compressing it. That it leaves BASE, the host events
still to come and the values already returned is the model's reading and not R260's
(notes/assumptions/20.md, DEDUCED). -/
def Obligations.PlatformResetFromEveryState : Prop :=
  ∀ (s : State) (rest : List HostEvent), s.hostTurn .reset rest →
    ∃ t, step s = .next t ∧ t.e.h = iv ∧ t.e.phase = .idle ∧ t.e.len = 0 ∧ t.e.buf = [] ∧
      t.e.pend = [] ∧ t.e.busy = false ∧ t.e.err = false ∧ t.e.errCode = .none ∧
      t.e.data = 0x00000000#32 ∧ t.base = s.base ∧ t.queue = rest ∧ t.returned = s.returned

/-! Whole-machine rules: only these events write a register -/

/-- 10_state.md R21: H is written by INIT, by the completion step and by reset, and by nothing else. -/
def Obligations.HashStateHasThreeWriters : Prop :=
  ∀ s t : State, step s = .next t → t.e.h ≠ s.e.h →
    (s.e.busy = true ∧ t.e.busy = false ∧ t.e.h = fold s.e.h s.e.pend) ∨
    (∃ rest, s.hostTurn (.write s.base 4 0x00000001#32) rest ∧ s.e.busy = false ∧ t.e.h = iv) ∨
    (∃ rest, s.hostTurn .reset rest ∧ t.e.h = iv)

/-- 10_state.md R28, R29: DATA changes only on a host write to offset 0x08 and on reset; LEN only when
an UPDATE or INIT is accepted and on reset. -/
def Obligations.DataAndLenHaveTheirWriters : Prop :=
  ∀ s t : State, step s = .next t →
    (t.e.data ≠ s.e.data →
      ∃ rest, (∃ v, s.hostTurn (.write (s.base + 0x08) 4 v) rest ∧ t.e.data = v) ∨
        (s.hostTurn .reset rest ∧ t.e.data = 0)) ∧
    (t.e.len ≠ s.e.len →
      ∃ rest, (∃ nb, s.hostTurn (.write s.base 4 (encode (.update nb))) rest ∧
          s.e.accepts (.update nb) ∧ t.e.len = s.e.len + nb) ∨
        (s.hostTurn (.write s.base 4 (encode .init)) rest ∧ s.e.accepts .init ∧ t.e.len = 0) ∨
        (s.hostTurn .reset rest ∧ t.e.len = 0))

/-- 10_state.md R33: only a rejected command sets ERR, only CLRERR and reset clear it, and while
ERR = 1 the code of the first error is kept. -/
def Obligations.ErrorRecordWriters : Prop :=
  ∀ s t : State, step s = .next t →
    (s.e.err = true → (t.e.err = true ∧ t.e.errCode = s.e.errCode) ∨
      (t.e.err = false ∧ t.e.errCode = .none ∧
        ∃ rest, s.hostTurn (.write s.base 4 (encode .clrerr)) rest ∨ s.hostTurn .reset rest)) ∧
    (s.e.err = false → t.e.err = true →
      ∃ w rest, s.hostTurn (.write s.base 4 w) rest ∧
        (illegalWord w ∨ ∃ i, decode w = .ok i ∧ ¬ s.e.accepts i))

/-! Invariants -/

/-- The reset state, the window at any BASE that is a multiple of 256, has the invariant. -/
def Obligations.ResetIsWellFormed : Prop :=
  ∀ b : Nat, b % 256 = 0 → (State.resetAt b).Wf

/-- 10_state.md R35 (a) to (f) with the sizes of R20, as an invariant that every step keeps. -/
def Obligations.EveryStepKeepsWellFormed : Prop :=
  ∀ s t : State, s.Wf → step s = .next t → t.Wf

/-- 40_block_framer.md R133, 10_state.md R35 (g): an accepted INIT and a reset leave the empty message,
an accepted UPDATE of nb bytes appends exactly those bytes of DATA at the message's end, and every
other step keeps the message: no byte is lost or reordered, H is the state after the completed
blocks, and after FINAL it leads to the digest. -/
def Obligations.EveryStepTracksTheMessage : Prop :=
  ∀ (s t : State) (M : List Byte), s.Wf → s.e.Holds M → step s = .next t →
    ∃ M', t.e.Holds M' ∧
      (s.beginsMessage → M' = []) ∧
      (∀ nb, s.appendsBytes nb → M' = M ++ (bytes32 s.e.data).take nb) ∧
      (¬ s.beginsMessage → (∀ nb, ¬ s.appendsBytes nb) → M' = M)

/-- 70_reset_and_hazards.md R272, 10_state.md R35 (g): in a state with the invariant that holds M, the
digest state of M stands in H when PHASE = DONE and BUSY = 0; with BUSY = 0 in ABSORB it is the
chaining value after the whole blocks of M. -/
def Obligations.ReadyDigestIsTheMessages : Prop :=
  ∀ (s : State) (M : List Byte), s.Wf → s.e.Holds M → s.e.busy = false →
    (s.e.phase = .done → s.e.h = digestState M) ∧
    (s.e.phase = .absorb → s.e.h = fold iv (blocks (M.take (M.length / 64 * 64))))

/-- 10_state.md R44: in any one step the internal round state is not observed and no draw is read back
into the engine. Two machines that differ only in W, a..h, t, in the values returned so far and in
the free values still to come take the same step up to those, and return the same new words, but for
the word of a read the spec leaves free, which is the same too when the free values to come are. How
long BUSY will last is itself a free value (notes/assumptions/4.md), drawn by the step that sets it. -/
def Obligations.RoundStateIsNeverObserved : Prop :=
  ∀ (s : State) (r : Rounds) (rs : List Word) (n : Nat),
    match step s,
      step { s with e := { s.e with rounds := r }, returned := rs, draws := n } with
    | .next t, .next t' =>
      t.e.sameVisible t'.e ∧ t'.queue = t.queue ∧ t'.base = t.base ∧
      (s.e.busy = true ∨ t.e.busy = false → t'.delay = t.delay) ∧
      (n = s.draws → t'.delay = t.delay ∧ t'.draws = t.draws) ∧
      ∃ new new', t.returned = new ++ s.returned ∧ t'.returned = new' ++ rs ∧
        new.length = new'.length ∧ new.length ≤ 1 ∧
        (n = s.draws ∨ ¬ s.freeRead → new = new')
    | .fault f, .fault f' => f = f'
    | _, _ => False

/-! The functional units -/

/-- 00_scope.md R12: be32 as a sum, bytes32 as the four bytes and inverse to it, and be64bytes as the
8 bytes of a number below 2^64, most significant first. -/
def Obligations.WordsAndBytesAreBigEndian : Prop :=
  (∀ b0 b1 b2 b3 : Byte, (be32 b0 b1 b2 b3).toNat =
    b0.toNat * 2 ^ 24 + b1.toNat * 2 ^ 16 + b2.toNat * 2 ^ 8 + b3.toNat) ∧
  (∀ (x : Word) (j : Nat), j < 4 →
    (bytes32 x).length = 4 ∧ ((bytes32 x).getD j 0).toNat = x.toNat / 2 ^ (24 - 8 * j) % 256) ∧
  (∀ b0 b1 b2 b3 : Byte, bytes32 (be32 b0 b1 b2 b3) = [b0, b1, b2, b3]) ∧
  (∀ x : Word, be32 (x.extractLsb' 24 8) (x.extractLsb' 16 8) (x.extractLsb' 8 8)
    (x.extractLsb' 0 8) = x) ∧
  (∀ v : Nat, v < 2 ^ 64 → (be64bytes v).length = 8 ∧
    (be64bytes v).foldl (fun n b => n * 256 + b.toNat) 0 = v)

/-- 00_scope.md R11, bit by bit: ROTR moves bit i + n (modulo 32) to bit i, SHR moves bit i + n to bit
i and fills with zeros. -/
def Obligations.RotateAndShiftBits : Prop :=
  ∀ (x : Word) (n i : Nat), 0 < n → n < 32 → i < 32 →
    (rotr x n).getLsbD i = x.getLsbD ((i + n) % 32) ∧
    (shr x n).getLsbD i = (decide (i + n < 32) && x.getLsbD (i + n))

/-- 41_message_scheduler.md R152, 42_compressor.md R171, R172: the four sigma functions, bit by bit, and
the examples. -/
def Obligations.SigmaFunctions : Prop :=
  (∀ (x : Word) (i : Nat), i < 32 →
    (smallSigma0 x).getLsbD i = ((x.getLsbD ((i + 7) % 32) ^^ x.getLsbD ((i + 18) % 32)) ^^
      (decide (i + 3 < 32) && x.getLsbD (i + 3))) ∧
    (smallSigma1 x).getLsbD i = ((x.getLsbD ((i + 17) % 32) ^^ x.getLsbD ((i + 19) % 32)) ^^
      (decide (i + 10 < 32) && x.getLsbD (i + 10))) ∧
    (bigSigma0 x).getLsbD i = ((x.getLsbD ((i + 2) % 32) ^^ x.getLsbD ((i + 13) % 32)) ^^
      x.getLsbD ((i + 22) % 32)) ∧
    (bigSigma1 x).getLsbD i = ((x.getLsbD ((i + 6) % 32) ^^ x.getLsbD ((i + 11) % 32)) ^^
      x.getLsbD ((i + 25) % 32))) ∧
  smallSigma0 0 = 0 ∧ smallSigma1 0 = 0 ∧
  smallSigma0 0x00000001#32 = 0x02004000#32 ∧ smallSigma1 0x00000001#32 = 0x0000a000#32 ∧
  smallSigma0 0xffffffff#32 = 0x1fffffff#32 ∧ smallSigma1 0xffffffff#32 = 0x003fffff#32 ∧
  bigSigma0 0x00000001#32 = 0x40080400#32 ∧ bigSigma1 0x00000001#32 = 0x04200080#32

/-- 42_compressor.md R173, R174: Ch takes f's bit where e's bit is 1 and g's where it is 0; Maj takes
the majority; and the examples. -/
def Obligations.ChooseAndMajority : Prop :=
  (∀ (e f g : Word) (i : Nat), i < 32 →
    (ch e f g).getLsbD i = (if e.getLsbD i then f.getLsbD i else g.getLsbD i) ∧
    ((maj e f g).getLsbD i = true ↔
      2 ≤ (e.getLsbD i).toNat + (f.getLsbD i).toNat + (g.getLsbD i).toNat)) ∧
  (∀ f g : Word, ch 0xffffffff#32 f g = f ∧ ch 0#32 f g = g) ∧
  ch 0x510e527f#32 0x9b05688c#32 0x1f83d9ab#32 = 0x1f85c98c#32 ∧
  maj 0xffffffff#32 0xffffffff#32 0#32 = 0xffffffff#32 ∧
  maj 0xf0f0f0f0#32 0xff00ff00#32 0x0f0f0f0f#32 = 0xff00ff00#32 ∧
  maj 0x6a09e667#32 0xbb67ae85#32 0x3c6ef372#32 = 0x3a6fe667#32

/-- 42_compressor.md R170, 43_digest_accumulator.md R200: K has 64 entries and K[t] is the first 32
bits of the fractional part of the cube root of the t-th prime (t from 0); IV[i] is the first 32 bits
of the fractional part of the square root of the i-th prime. Each pair of bounds fixes the word. -/
def Obligations.ConstantTablesAreRootsOfPrimes : Prop :=
  kTable.length = 64 ∧
  (∀ t, t < 64 → ∃ n, n < 8 ∧
    (n * 2 ^ 32 + (kWord t).toNat) ^ 3 ≤ Nat.nth Nat.Prime t * 2 ^ 96 ∧
    Nat.nth Nat.Prime t * 2 ^ 96 < (n * 2 ^ 32 + (kWord t).toNat + 1) ^ 3) ∧
  (∀ i, i < 8 → ∃ n, n < 5 ∧
    (n * 2 ^ 32 + (iv.word i).toNat) ^ 2 ≤ Nat.nth Nat.Prime i * 2 ^ 64 ∧
    Nat.nth Nat.Prime i * 2 ^ 64 < (n * 2 ^ 32 + (iv.word i).toNat + 1) ^ 2)

/-- 41_message_scheduler.md R151, R153: the 64 words of the schedule, each by its own rule; and the
examples, the "abc" block among them. -/
def Obligations.ScheduleFollowsTheRecurrence : Prop :=
  (∀ B : Block, B.length = 64 →
    (schedule B).length = 64 ∧
    (∀ i, i < 16 → (schedule B).getD i 0 =
      be32 (B.getD (4 * i) 0) (B.getD (4 * i + 1) 0) (B.getD (4 * i + 2) 0)
        (B.getD (4 * i + 3) 0)) ∧
    (∀ i, 16 ≤ i → i < 64 → (schedule B).getD i 0 =
      smallSigma1 ((schedule B).getD (i - 2) 0) + (schedule B).getD (i - 7) 0 +
        smallSigma0 ((schedule B).getD (i - 15) 0) + (schedule B).getD (i - 16) 0)) ∧
  (∀ rest : List Byte,
    (schedule ([0x61#8, 0x62#8, 0x63#8, 0x80#8] ++ rest)).getD 0 0 = 0x61626380#32) ∧
  (schedule (pad [0x61#8, 0x62#8, 0x63#8])).getD 16 0 = 0x61626380#32 ∧
  (schedule (pad [0x61#8, 0x62#8, 0x63#8])).getD 17 0 = 0x000f0000#32 ∧
  (schedule (pad [0x61#8, 0x62#8, 0x63#8])).getD 63 0 = 0x12b1edeb#32

/-- 41_message_scheduler.md R156: a 16-word sliding window gives the same W[t] in every round. -/
def Obligations.SlidingWindowGivesTheSchedule : Prop :=
  ∀ (B : Block) (t : Nat), t < 64 → windowWord B t = (schedule B).getD t 0

/-- 42_compressor.md R177, R178, R182 (c): in each round only a and e receive new values and the other
six are shifted one place; and round 0 of the "abc" block. -/
def Obligations.RoundFollowsItsRule : Prop :=
  (∀ (W : List Word) (v : Working) (t : Nat),
    roundAt W v t =
      { a := (v.h + bigSigma1 v.e + ch v.e v.f v.g + kWord t + W.getD t 0) +
          (bigSigma0 v.a + maj v.a v.b v.c)
        b := v.a, c := v.b, d := v.c
        e := v.d + (v.h + bigSigma1 v.e + ch v.e v.f v.g + kWord t + W.getD t 0)
        f := v.e, g := v.f, h := v.g }) ∧
  roundWith 0x428a2f98#32 0x61626380#32 (loadVars iv) =
    { a := 0x5d6aebcd#32, b := 0x6a09e667#32, c := 0xbb67ae85#32, d := 0x3c6ef372#32
      e := 0xfa2a4622#32, f := 0x510e527f#32, g := 0x9b05688c#32, h := 0x1f83d9ab#32 }

/-- 40_block_framer.md R120, R122, R123, R126: the number of zeros is the least that makes the length
56 modulo 64; the padded length and the block count follow; every block has 64 bytes, and the
blocks in order are the padded message. -/
def Obligations.PaddedLength : Prop :=
  ∀ M : List Byte,
    (M.length + 1 + padZeros M.length) % 64 = 56 ∧
    (∀ z, (M.length + 1 + z) % 64 = 56 → padZeros M.length ≤ z) ∧
    (pad M).length = M.length + 9 + padZeros M.length ∧
    (pad M).length % 64 = 0 ∧ 0 < (pad M).length ∧
    ((M.length + 9) % 64 = 0 → (pad M).length = M.length + 9) ∧
    (pad M).length < M.length + 9 + 64 ∧
    (blocks (pad M)).length = (M.length + 8) / 64 + 1 ∧
    (∀ B ∈ blocks (pad M), B.length = 64) ∧ (blocks (pad M)).flatten = pad M

/-- 40_block_framer.md R125, R121: the last 8 bytes of the padded message, read big-endian, are 8·L,
and its first L bytes are the message. -/
def Obligations.PaddingIsRecovered : Prop :=
  ∀ M : List Byte, M.length ≤ 2 ^ 61 - 1 →
    ((pad M).drop ((pad M).length - 8)).foldl (fun v b => v * 256 + b.toNat) 0 =
      8 * M.length ∧
    (pad M).take M.length = M

/-- 40_block_framer.md R128: the length of tail(BUF, LEN), and that it is the last 64 or 128 bytes of
the padded message whose partial block is BUF. -/
def Obligations.TailEndsThePadding : Prop :=
  ∀ (past buf : List Byte) (len : Nat), buf.length ≤ 63 →
    (tail buf len).length = (if buf.length ≤ 55 then 64 else 128) ∧
    (past.length % 64 = 0 → len = past.length + buf.length →
      pad (past ++ buf) = past ++ tail buf len)

/-- 43_digest_accumulator.md R213: hashing can be cut at every block boundary. -/
def Obligations.IncrementalConsistency : Prop :=
  ∀ M1 M2 : List Byte, M1.length % 64 = 0 →
    fold iv (blocks (pad (M1 ++ M2))) =
      fold (fold iv (blocks M1)) (blocks ((pad (M1 ++ M2)).drop M1.length))

/-- 20_memory.md R68, 43_digest_accumulator.md R210: the digest is 32 bytes, and byte 4·i + j of it is
byte j of H[i], that is H[i][31 − 8j : 24 − 8j]. -/
def Obligations.DigestBytesAreBigEndian : Prop :=
  ∀ (M : List Byte) (i j : Nat), i < 8 → j < 4 →
    (digest M).length = 32 ∧
    (digest M).getD (4 * i + j) 0 = (bytes32 ((digestState M).word i)).getD j 0 ∧
    (digest M).getD (4 * i + j) 0 = ((digestState M).word i).extractLsb' (24 - 8 * j) 8

/-- 43_digest_accumulator.md R211: from any state, the host sequence INIT, UPDATEs of 1 to 4 bytes in
any split, FINAL, with a poll after each, and the reads of DIGEST0..7 ends, and the eight words
read are the digest of the message; ERR and ERRCODE are as before. -/
def Obligations.AnySplitReadsTheDigest : Prop :=
  ∀ (s : State) (groups : List (List Byte)),
    (∀ g ∈ groups, 1 ≤ g.length ∧ g.length ≤ 4) → groups.flatten.length ≤ 2 ^ 61 - 1 →
    s.e.busy = false → s.queue = hashSplit s.base groups →
    ∃ n t, Host.Core.run core n s = .next t ∧ t.queue = [] ∧
      (t.returned.take 8).reverse.flatMap bytes32 = digest groups.flatten ∧
      t.e.phase = .done ∧ t.e.busy = false ∧ t.e.len = groups.flatten.length ∧
      t.e.err = s.e.err ∧ t.e.errCode = s.e.errCode

/-- 30_encoding.md R101, 43_digest_accumulator.md R211: `hash M` as the spec expands it, in groups of
four bytes and one of the rest, reads the digest of M. -/
def Obligations.HashProgramReadsTheDigest : Prop :=
  ∀ (s : State) (M : List Byte), M.length ≤ 2 ^ 61 - 1 →
    s.e.busy = false → s.queue = hashProgram s.base M →
    (fourByteGroups M).flatten = M ∧
    ∃ n t, Host.Core.run core n s = .next t ∧ t.queue = [] ∧
      (t.returned.take 8).reverse.flatMap bytes32 = digest M

/-! Several instances (spec/10_state.md rule R47) -/

/-- 10_state.md R47, 42_compressor.md R187: a step of one instance leaves every other one as it is, and
steps of two instances can be taken in either order. -/
def Obligations.InstancesAreIndependent : Prop :=
  ∀ (is : Instances) (i j : Nat), i ≠ j →
    (∀ is', is.stepOne i = some is' → is'[j]? = is[j]?) ∧
    (is.stepOne i).bind (Instances.stepOne j) = (is.stepOne j).bind (Instances.stepOne i)

/-- 20_memory.md R61, 60_exceptions.md R247: an address reaches at most one instance. -/
def Obligations.AddressReachesOneInstance : Prop :=
  ∀ (is : Instances) (i j : Nat) (s t : State) (addr : Nat), is.placed →
    is[i]? = some s → is[j]? = some t →
    inWindow s.base addr = true → inWindow t.base addr = true → i = j
end

