-- ==== Sys2Proof/Laws/Bytes.lean ====
section
/-! SUPPORT. Lengths and block cutting: the arithmetic of spec/00_scope.md rules R12, R14 and spec/40_block_framer.md rules R120 to R128. -/

namespace Sys2Proof.Machine

@[simp] theorem bytes32_length (x : Word) : (bytes32 x).length = 4 := rfl

@[simp] theorem be64bytes_length (v : Nat) : (be64bytes v).length = 8 := rfl

@[simp] theorem zeros_length (n : Nat) : (zeros n).length = n := by simp [zeros]

@[simp] theorem dataBytes_length (d : Word) (nb : Nat) :
    (dataBytes d nb).length = min nb 4 := by simp [dataBytes]

/-- be32 as a number (00_scope.md R12); the powers of two as numerals, which omega takes quickly. -/
theorem be32_toNat (b0 b1 b2 b3 : Byte) :
    (be32 b0 b1 b2 b3).toNat =
      b0.toNat * 16777216 + b1.toNat * 65536 + b2.toNat * 256 + b3.toNat := by
  have h1 := b1.isLt
  have h3 := b3.isLt
  have h23 := (b2 ++ b3).isLt
  unfold be32
  rw [BitVec.toNat_append, ← Nat.shiftLeft_add_eq_or_of_lt h23, BitVec.toNat_append,
    ← Nat.shiftLeft_add_eq_or_of_lt h1, BitVec.toNat_append, ← Nat.shiftLeft_add_eq_or_of_lt h3]
  simp only [Nat.shiftLeft_eq]
  omega

/-- The byte of a word that begins at bit k (00_scope.md R12). -/
theorem byteAt_toNat (x : Word) (k : Nat) :
    (x.extractLsb' k 8).toNat = x.toNat / 2 ^ k % 256 := by
  rw [BitVec.extractLsb'_toNat, Nat.shiftRight_eq_div_pow]

theorem padZeros_lt (L : Nat) : padZeros L < 64 := Nat.mod_lt _ (by decide)

@[simp] theorem pad_length (M : List Byte) :
    (pad M).length = M.length + 9 + padZeros M.length := by
  simp [pad]; omega

@[simp] theorem tail_length (buf : List Byte) (len : Nat) :
    (tail buf len).length = buf.length + 9 + padZeros buf.length := by
  simp [tail]; omega

theorem takeBlocks_add (m n : Nat) (P : List Byte) :
    takeBlocks (m + n) P = takeBlocks m P ++ takeBlocks n (P.drop (64 * m)) := by
  induction m generalizing P with
  | zero => simp [takeBlocks]
  | succ m ih =>
    rw [Nat.succ_add, takeBlocks, ih, takeBlocks, List.drop_drop]
    simp [Nat.mul_succ, Nat.add_comm]

@[simp] theorem takeBlocks_length (n : Nat) (P : List Byte) :
    (takeBlocks n P).length = n := by
  induction n generalizing P with
  | zero => rfl
  | succ n ih => simp [takeBlocks, ih]

theorem takeBlocks_prefix (n : Nat) (P Q : List Byte) (h : 64 * n ≤ P.length) :
    takeBlocks n (P ++ Q) = takeBlocks n P := by
  induction n generalizing P with
  | zero => rfl
  | succ n ih =>
    have h64 : 64 ≤ P.length := by omega
    rw [takeBlocks, takeBlocks, List.take_append_of_le_length h64,
      List.drop_append_of_le_length h64, ih _ (by rw [List.length_drop]; omega)]

/-- Cutting at a block boundary (43_digest_accumulator.md R213 rests on it). -/
theorem blocks_append (P Q : List Byte) (h : P.length % 64 = 0) :
    blocks (P ++ Q) = blocks P ++ blocks Q := by
  have e : (P ++ Q).length / 64 = P.length / 64 + Q.length / 64 := by
    rw [List.length_append]; omega
  have e' : 64 * (P.length / 64) = P.length := by omega
  rw [blocks, e, takeBlocks_add, e', List.drop_left, takeBlocks_prefix _ _ _ (by omega)]
  rfl

/-- Every block that is cut has 64 bytes (40_block_framer.md R126). -/
theorem takeBlocks_size (n : Nat) (P : List Byte) (h : 64 * n ≤ P.length) :
    ∀ B ∈ takeBlocks n P, B.length = 64 := by
  induction n generalizing P with
  | zero => simp [takeBlocks]
  | succ n ih =>
    intro B hB
    rw [takeBlocks, List.mem_cons] at hB
    rcases hB with rfl | hB
    · rw [List.length_take]; omega
    · exact ih _ (by rw [List.length_drop]; omega) B hB

theorem blocks_size (P : List Byte) : ∀ B ∈ blocks P, B.length = 64 :=
  takeBlocks_size _ _ (by omega)

@[simp] theorem blocks_length (P : List Byte) : (blocks P).length = P.length / 64 := by
  simp [blocks]

theorem takeBlocks_flatten (n : Nat) (P : List Byte) :
    (takeBlocks n P).flatten = P.take (64 * n) := by
  induction n generalizing P with
  | zero => rfl
  | succ n ih =>
    rw [takeBlocks, List.flatten_cons, ih, Nat.mul_succ, Nat.add_comm, ← List.take_add]

theorem blocks_flatten (P : List Byte) (h : P.length % 64 = 0) : (blocks P).flatten = P := by
  rw [blocks, takeBlocks_flatten, List.take_of_length_le (by omega)]

/-- A list of 64-byte blocks is what its concatenation is cut into. -/
theorem blocks_of_flatten (bs : List Block) (h : ∀ B ∈ bs, B.length = 64) :
    blocks bs.flatten = bs := by
  induction bs with
  | nil => rfl
  | cons B bs ih =>
    have hB : B.length = 64 := h B (by simp)
    rw [List.flatten_cons, blocks_append _ _ (by omega), ih fun C hC => h C (by simp [hC])]
    simp [blocks, hB, takeBlocks, List.take_of_length_le]

theorem flatten_length_mod (bs : List Block) (h : ∀ B ∈ bs, B.length = 64) :
    bs.flatten.length % 64 = 0 := by
  induction bs with
  | nil => rfl
  | cons B bs ih =>
    have hB : B.length = 64 := h B (by simp)
    have := ih fun C hC => h C (by simp [hC])
    rw [List.flatten_cons, List.length_append]; omega

@[simp] theorem blockWords_length (B : Block) : (blockWords B).length = 16 := by
  simp [blockWords]

end Sys2Proof.Machine
end

