-- ==== Sys2Proof/Laws/State.lean ====
section
/-! SUPPORT. The small lemmas of the state's named operations: what each field is after each of them. -/

namespace Sys2Proof.Machine

section Engine

@[simp] theorem Engine.reject_h (c : ErrCode) (e : Engine) : (e.reject c).h = e.h := by
  unfold Engine.reject; split <;> rfl
@[simp] theorem Engine.reject_phase (c : ErrCode) (e : Engine) : (e.reject c).phase = e.phase := by
  unfold Engine.reject; split <;> rfl
@[simp] theorem Engine.reject_len (c : ErrCode) (e : Engine) : (e.reject c).len = e.len := by
  unfold Engine.reject; split <;> rfl
@[simp] theorem Engine.reject_buf (c : ErrCode) (e : Engine) : (e.reject c).buf = e.buf := by
  unfold Engine.reject; split <;> rfl
@[simp] theorem Engine.reject_pend (c : ErrCode) (e : Engine) : (e.reject c).pend = e.pend := by
  unfold Engine.reject; split <;> rfl
@[simp] theorem Engine.reject_busy (c : ErrCode) (e : Engine) : (e.reject c).busy = e.busy := by
  unfold Engine.reject; split <;> rfl
@[simp] theorem Engine.reject_err (c : ErrCode) (e : Engine) : (e.reject c).err = true := by
  unfold Engine.reject; split <;> simp_all
@[simp] theorem Engine.reject_errCode (c : ErrCode) (e : Engine) :
    (e.reject c).errCode = if e.err then e.errCode else c := by
  unfold Engine.reject; split <;> rfl
@[simp] theorem Engine.reject_data (c : ErrCode) (e : Engine) : (e.reject c).data = e.data := by
  unfold Engine.reject; split <;> rfl
@[simp] theorem Engine.reject_rounds (c : ErrCode) (e : Engine) :
    (e.reject c).rounds = e.rounds := by
  unfold Engine.reject; split <;> rfl

end Engine

section State

variable (s : State)

@[simp] theorem State.reject_base (c : ErrCode) : (s.reject c).base = s.base := rfl
@[simp] theorem State.reject_e (c : ErrCode) : (s.reject c).e = s.e.reject c := rfl
@[simp] theorem State.reject_queue (c : ErrCode) : (s.reject c).queue = s.queue := rfl
@[simp] theorem State.reject_returned (c : ErrCode) : (s.reject c).returned = s.returned := rfl
@[simp] theorem State.reject_draws (c : ErrCode) : (s.reject c).draws = s.draws := rfl
@[simp] theorem State.reject_delay (c : ErrCode) : (s.reject c).delay = s.delay := rfl

@[simp] theorem State.clearError_base : s.clearError.base = s.base := rfl
@[simp] theorem State.clearError_e :
    s.clearError.e = { s.e with err := false, errCode := .none } := rfl
@[simp] theorem State.clearError_queue : s.clearError.queue = s.queue := rfl
@[simp] theorem State.clearError_returned : s.clearError.returned = s.returned := rfl
@[simp] theorem State.clearError_draws : s.clearError.draws = s.draws := rfl
@[simp] theorem State.clearError_delay : s.clearError.delay = s.delay := rfl

@[simp] theorem State.startMessage_base : s.startMessage.base = s.base := rfl
@[simp] theorem State.startMessage_e :
    s.startMessage.e = { s.e with h := iv, len := 0, buf := [], phase := .absorb } := rfl
@[simp] theorem State.startMessage_queue : s.startMessage.queue = s.queue := rfl
@[simp] theorem State.startMessage_returned : s.startMessage.returned = s.returned := rfl
@[simp] theorem State.startMessage_draws : s.startMessage.draws = s.draws := rfl
@[simp] theorem State.startMessage_delay : s.startMessage.delay = s.delay := rfl

@[simp] theorem State.startWork_base (bs : List Block) : (s.startWork bs).base = s.base := rfl
@[simp] theorem State.startWork_e (bs : List Block) :
    (s.startWork bs).e = { s.e with
      pend := bs, busy := true, rounds := freeRounds s.base (s.draws + 1) } := rfl
@[simp] theorem State.startWork_queue (bs : List Block) : (s.startWork bs).queue = s.queue := rfl
@[simp] theorem State.startWork_returned (bs : List Block) :
    (s.startWork bs).returned = s.returned := rfl
@[simp] theorem State.startWork_draws (bs : List Block) :
    (s.startWork bs).draws = s.draws + 1 + roundDraws := rfl
@[simp] theorem State.startWork_delay (bs : List Block) :
    (s.startWork bs).delay = Config.freeNat s.base s.draws := rfl

@[simp] theorem State.writeData_base (v : Word) : (s.writeData v).base = s.base := rfl
@[simp] theorem State.writeData_e (v : Word) : (s.writeData v).e = { s.e with data := v } := rfl
@[simp] theorem State.writeData_queue (v : Word) : (s.writeData v).queue = s.queue := rfl
@[simp] theorem State.writeData_returned (v : Word) : (s.writeData v).returned = s.returned := rfl
@[simp] theorem State.writeData_draws (v : Word) : (s.writeData v).draws = s.draws := rfl
@[simp] theorem State.writeData_delay (v : Word) : (s.writeData v).delay = s.delay := rfl

@[simp] theorem State.giveHost_base (v : Word) : (s.giveHost v).base = s.base := rfl
@[simp] theorem State.giveHost_e (v : Word) : (s.giveHost v).e = s.e := rfl
@[simp] theorem State.giveHost_queue (v : Word) : (s.giveHost v).queue = s.queue := rfl
@[simp] theorem State.giveHost_returned (v : Word) :
    (s.giveHost v).returned = v :: s.returned := rfl
@[simp] theorem State.giveHost_draws (v : Word) : (s.giveHost v).draws = s.draws + 1 := rfl
@[simp] theorem State.giveHost_delay (v : Word) : (s.giveHost v).delay = s.delay := rfl

@[simp] theorem State.loseRounds_base : s.loseRounds.base = s.base := rfl
@[simp] theorem State.loseRounds_e :
    s.loseRounds.e = { s.e with rounds := freeRounds s.base s.draws } := rfl
@[simp] theorem State.loseRounds_queue : s.loseRounds.queue = s.queue := rfl
@[simp] theorem State.loseRounds_returned : s.loseRounds.returned = s.returned := rfl
@[simp] theorem State.loseRounds_draws : s.loseRounds.draws = s.draws + roundDraws := rfl
@[simp] theorem State.loseRounds_delay : s.loseRounds.delay = s.delay := rfl

@[simp] theorem State.platformReset_base : s.platformReset.base = s.base := rfl
@[simp] theorem State.platformReset_e :
    s.platformReset.e = { Engine.reset with rounds := freeRounds s.base s.draws } := rfl
@[simp] theorem State.platformReset_queue : s.platformReset.queue = s.queue := rfl
@[simp] theorem State.platformReset_returned : s.platformReset.returned = s.returned := rfl
@[simp] theorem State.platformReset_draws :
    s.platformReset.draws = s.draws + roundDraws := rfl
@[simp] theorem State.platformReset_delay : s.platformReset.delay = s.delay := rfl

@[simp] theorem State.taken_base (q : List HostEvent) : (s.taken q).base = s.base := rfl
@[simp] theorem State.taken_e (q : List HostEvent) : (s.taken q).e = s.e := rfl
@[simp] theorem State.taken_queue (q : List HostEvent) : (s.taken q).queue = q := rfl
@[simp] theorem State.taken_returned (q : List HostEvent) :
    (s.taken q).returned = s.returned := rfl
@[simp] theorem State.taken_draws (q : List HostEvent) : (s.taken q).draws = s.draws := rfl
@[simp] theorem State.taken_delay (q : List HostEvent) : (s.taken q).delay = s.delay - 1 := rfl

end State

/-- The free round state has the shape of 10_state.md R20, whatever the free values are. -/
@[simp] theorem freeRounds_shape (b d : Nat) :
    (freeRounds b d).w.length = 64 ∧ (freeRounds b d).t ≤ 63 := by
  refine ⟨by simp [freeRounds], ?_⟩
  have : Config.freeNat b (d + 72) % 64 < 64 := Nat.mod_lt _ (by decide)
  simp only [freeRounds]
  omega

end Sys2Proof.Machine
end

