-- ==== Sys2Proof/Laws/Compressor.lean ====
section
/-! SUPPORT. The schedule and the round loop: what n extensions and n rounds leave (spec/41_message_scheduler.md, spec/42_compressor.md). -/

namespace Sys2Proof.Machine

@[simp] theorem extendSchedule_length (W : List Word) (i : Nat) :
    (extendSchedule W i).length = W.length + 1 := by simp [extendSchedule]

theorem foldl_extendSchedule_length (is : List Nat) (W : List Word) :
    (is.foldl extendSchedule W).length = W.length + is.length := by
  induction is generalizing W with
  | nil => rfl
  | cons i is ih => simp [ih]; omega

@[simp] theorem schedule_length (B : Block) : (schedule B).length = 64 := by
  simp [schedule, foldl_extendSchedule_length]

/-- Extending keeps every word that is there. -/
theorem foldl_extendSchedule_getD (is : List Nat) (W : List Word) (j : Nat) (h : j < W.length) :
    (is.foldl extendSchedule W).getD j 0 = W.getD j 0 := by
  induction is generalizing W with
  | nil => rfl
  | cons i is ih =>
    rw [List.foldl_cons, ih _ (by simp; omega), extendSchedule,
      List.getD_append _ _ _ _ h]

/-- After n ≤ 63 + 1 rounds from the start of a block: W is the schedule still, the working
variables are those of rounds 0 .. n − 1, and t has taken the values in order. -/
theorem advance_iterate (H : HashState) (B : Block) (n : Nat) :
    n ≤ 64 →
    Rounds.advance^[n] (beginRounds H B) =
      { w := schedule B
        vars := (List.range n).foldl (roundAt (schedule B)) (loadVars H)
        t := min n 63 } := by
  induction n with
  | zero => intro _; rfl
  | succ n ih =>
    intro hn
    rw [Function.iterate_succ_apply', ih (by omega), Rounds.advance, List.range_succ,
      List.foldl_append]
    have h1 : min n 63 = n := by omega
    simp only [h1, List.foldl_cons, List.foldl_nil]
    congr 1
    split <;> omega

theorem fold_append (H : HashState) (bs cs : List Block) :
    fold H (bs ++ cs) = fold (fold H bs) cs := by simp [fold]

@[simp] theorem fold_nil (H : HashState) : fold H [] = H := rfl

@[simp] theorem fold_cons (H : HashState) (B : Block) (bs : List Block) :
    fold H (B :: bs) = fold (compress H B) bs := rfl

section Complete

variable (s : State)

@[simp] theorem State.complete_base : s.complete.base = s.base := rfl
@[simp] theorem State.complete_queue : s.complete.queue = s.queue := rfl
@[simp] theorem State.complete_returned : s.complete.returned = s.returned := rfl
@[simp] theorem State.complete_draws : s.complete.draws = s.draws + roundDraws := rfl
@[simp] theorem State.complete_delay : s.complete.delay = s.delay := rfl
@[simp] theorem State.complete_pend : s.complete.e.pend = [] := rfl
@[simp] theorem State.complete_busy : s.complete.e.busy = false := rfl
@[simp] theorem State.complete_rounds : s.complete.e.rounds = freeRounds s.base s.draws := rfl

end Complete

end Sys2Proof.Machine
end

