-- ==== Sys2Proof/Laws/Exec.lean ====
section
/-! SUPPORT. What each command can answer, one lemma per command: provers cite these and do not unfold the meanings. -/

namespace Sys2Proof.Machine

/-- reject as one record update, whatever ERR is (60_exceptions.md R236). -/
theorem State.reject_eq (s : State) (c : ErrCode) :
    s.reject c = { s with e := { s.e with
      err := true, errCode := if s.e.err then s.e.errCode else c } } := by
  simp only [State.reject, Engine.reject]
  cases he : s.e.err
  · simp
  · simp only [if_true]
    rw [← he]

/-- INIT answers one of two states (43_digest_accumulator.md R202). -/
theorem execInit_eq (s : State) :
    execInit s = .next (if s.e.busy then s.reject .busy else s.startMessage) := by
  unfold execInit initError
  split <;> simp_all

/-- FINAL answers one of three states (40_block_framer.md R135). -/
theorem execFinal_eq (s : State) :
    execFinal s = .next
      (if s.e.busy then s.reject .busy
       else if s.e.phase ≠ .absorb then s.reject .seq
       else s.closeMessage) := by
  unfold execFinal finalError
  by_cases hb : s.e.busy = true
  · simp [hb]
  · by_cases hp : s.e.phase = .absorb <;> simp [hb, hp]

/-- UPDATE answers one of five states (40_block_framer.md R131). -/
theorem execUpdate_eq (nb : Nat) (s : State) :
    execUpdate nb s = .next
      (if s.e.busy then s.reject .busy
       else if s.e.phase ≠ .absorb then s.reject .seq
       else if nbLegal nb = false then s.reject .arg
       else if Config.lmax < s.e.len + nb then s.reject .len
       else s.append nb) := by
  unfold execUpdate updateError
  by_cases hb : s.e.busy = true
  · simp [hb]
  · by_cases hp : s.e.phase = .absorb
    · by_cases hn : nbLegal nb = false
      · simp [hb, hp, hn]
      · by_cases hl : Config.lmax < s.e.len + nb <;> simp [hb, hp, hn, hl]
    · simp [hb, hp]

/-- Every command answers a next state: none of them stops. -/
theorem exec_next (i : Instr) (s : State) : ∃ t, exec i s = .next t := by
  cases i with
  | nop => exact ⟨_, rfl⟩
  | init => exact ⟨_, execInit_eq s⟩
  | update nb => exact ⟨_, execUpdate_eq nb s⟩
  | final => exact ⟨_, execFinal_eq s⟩
  | clrerr => exact ⟨_, rfl⟩

theorem lmax_eq : Config.lmax = 2 ^ 61 - 1 := rfl

theorem nbLegal_iff (nb : Nat) : nbLegal nb = true ↔ 1 ≤ nb ∧ nb ≤ 4 := by simp [nbLegal]

/-- An accepted UPDATE appends (40_block_framer.md R131). -/
theorem execUpdate_accepted {s : State} {nb : Nat} (h : s.e.accepts (.update nb)) :
    execUpdate nb s = .next (s.append nb) := by
  obtain ⟨hb, hp, hn, hl⟩ := h
  have hn' : ¬ nbLegal nb = false := by simp [(nbLegal_iff nb).2 hn]
  have hl' : ¬ Config.lmax < s.e.len + nb := by rw [lmax_eq]; omega
  rw [execUpdate_eq, if_neg (by simp [hb]), if_neg (by simp [hp]), if_neg hn', if_neg hl']

/-- An accepted FINAL closes the message (40_block_framer.md R135). -/
theorem execFinal_accepted {s : State} (h : s.e.accepts .final) :
    execFinal s = .next s.closeMessage := by
  rw [execFinal_eq, if_neg (by simp [h.1]), if_neg (by simp [h.2])]

/-- An UPDATE that does not fill the block (40_block_framer.md R131, second branch). -/
theorem State.append_within (s : State) (nb : Nat)
    (h : (s.e.buf ++ dataBytes s.e.data nb).length < 64) :
    s.append nb =
      { s with e := { s.e with len := s.e.len + nb, buf := s.e.buf ++ dataBytes s.e.data nb } } := by
  unfold State.append
  rw [if_neg (by omega)]

/-- An UPDATE that fills the block (40_block_framer.md R131, first branch). -/
theorem State.append_fills (s : State) (nb : Nat)
    (h : 64 ≤ (s.e.buf ++ dataBytes s.e.data nb).length) :
    s.append nb =
      ({ s with e := { s.e with
          len := s.e.len + nb
          buf := (s.e.buf ++ dataBytes s.e.data nb).drop 64 } }).startWork
        [(s.e.buf ++ dataBytes s.e.data nb).take 64] := by
  unfold State.append
  rw [if_pos h]

/-- What no UPDATE changes: everything outside LEN, BUF, PEND and BUSY, and the internal round state
where no block is filled. -/
theorem State.append_frame (s : State) (nb : Nat) :
    (s.append nb).base = s.base ∧ (s.append nb).queue = s.queue ∧
    (s.append nb).returned = s.returned ∧ (s.append nb).e.h = s.e.h ∧
    (s.append nb).e.phase = s.e.phase ∧ (s.append nb).e.err = s.e.err ∧
    (s.append nb).e.errCode = s.e.errCode ∧ (s.append nb).e.data = s.e.data ∧
    ((s.append nb).e.busy = false → (s.append nb).e.rounds = s.e.rounds) ∧
    (s.append nb).e.len = s.e.len + nb := by
  unfold State.append
  dsimp only
  split <;> simp

end Sys2Proof.Machine
end

