-- ==== Sys2Proof/Laws/PerInstr.lean ====
section
/-! SUPPORT. Statements made per command, about the command as syntax: the family Fields. -/

namespace Sys2Proof.Laws.Fields

/-- The fields of a command's word are OP = its opcode, NB = its operand, RSVD = 0
(spec/30_encoding.md rules R91, R93, R99). -/
def Statement (i : Instr) : Prop :=
  i.wellFormed = true →
    opField (encode i) = opcode i ∧ nbField (encode i) = nbOperand i ∧ rsvdField (encode i) = 0

theorem nop : Statement .nop := fun _ => by decide

theorem init : Statement .init := fun _ => by decide

theorem update (nb : Nat) : Statement (.update nb) := fun h => by
  have hn : nb < 8 := by simpa [Instr.wellFormed] using h
  interval_cases nb <;> decide

theorem final : Statement .final := fun _ => by decide

theorem clrerr : Statement .clrerr := fun _ => by decide

end Sys2Proof.Laws.Fields
end

