-- ==== Sys2Proof/Laws/Step.lean ====
section
/-! SUPPORT. What one step can do, said once: the completion step, the waiting machine, or one host event. -/

namespace Sys2Proof.Machine

/-- The inversion lemma of `step`: which agent moves, and the move it makes (20_memory.md R74). -/
theorem step_cases (s : State) :
    (completionTurn s = true ∧ step s = .next s.complete) ∨
    (completionTurn s = false ∧ s.queue = [] ∧ step s = .next s) ∨
    (∃ ev rest, completionTurn s = false ∧ s.queue = ev :: rest ∧
      step s = hostMove ev (s.taken rest)) := by
  unfold step advance
  by_cases hc : completionTurn s = true
  · exact .inl ⟨hc, by simp [hc]⟩
  · have hf : completionTurn s = false := by simpa using hc
    cases hq : s.queue with
    | nil => exact .inr (.inl ⟨hf, rfl, by simp [hf]⟩)
    | cons ev rest =>
      exact .inr (.inr ⟨ev, rest, hf, rfl, by simp [hf, State.taken]⟩)

/-- It is the host's turn exactly when a first event stands in the queue and no completion comes
before it. -/
theorem completionTurn_of_hostTurn {s : State} {ev : HostEvent} {rest : List HostEvent}
    (h : s.hostTurn ev rest) : completionTurn s = false := by
  obtain ⟨hq, hd⟩ := h
  unfold completionTurn
  cases hb : s.e.busy with
  | false => rfl
  | true => simp [hq, hd hb]

theorem step_of_hostTurn {s : State} {ev : HostEvent} {rest : List HostEvent}
    (h : s.hostTurn ev rest) : step s = hostMove ev (s.taken rest) := by
  have hc := completionTurn_of_hostTurn h
  unfold step advance
  rw [hc, h.1]
  rfl

theorem step_of_completionTurn {s : State} (h : completionTurn s = true) :
    step s = .next s.complete := by
  unfold step advance
  rw [if_pos h]

/-- The next step runs the command that was placed, on the state without it. -/
theorem hostTurn_withCommand (w : Word) (s : State) :
    (withCommand w s).hostTurn (.write s.base 4 w) s.queue :=
  ⟨rfl, fun _ => Nat.succ_ne_zero _⟩

@[simp] theorem taken_withCommand (w : Word) (s : State) :
    (withCommand w s).taken s.queue = s := rfl

/-- BASE ≤ A ≤ BASE + 0xFF (20_memory.md R61). -/
theorem inWindow_iff (b a : Nat) : inWindow b a = true ↔ b ≤ a ∧ a ≤ b + 0xff := by
  unfold inWindow
  rw [decide_eq_true_iff]
  show b ≤ a ∧ a < b + 256 ↔ _
  omega

@[simp] theorem inWindow_add (b off : Nat) (h : off < 256) : inWindow b (b + off) = true := by
  simp [inWindow, Config.windowSize, h]

/-- An admitted write reaches the register of its offset (20_memory.md R61, R62). -/
theorem busWrite_admitted (s : State) (off : Nat) (v : Word) (h : off < 256) (h4 : off % 4 = 0) :
    busWrite (s.base + off) 4 v s = regWrite off v s := by
  simp [busWrite, h, h4]

/-- An admitted read gives the host the register of its offset (20_memory.md R61, R62). -/
theorem busRead_admitted (s : State) (off : Nat) (h : off < 256) (h4 : off % 4 = 0) :
    busRead (s.base + off) 4 s =
      .next (s.giveHost (s.e.regRead (Config.freeWord s.base s.draws) off)) := by
  simp [busRead, h, h4]

/-- A write to CMD issues the word (30_encoding.md R90). -/
theorem busWrite_cmd (s : State) (w : Word) : busWrite s.base 4 w s = issue w s :=
  busWrite_admitted s 0 w (by decide) rfl

/-- The register reads do not see the internal round state (10_state.md R44). -/
theorem regRead_rounds (d : Word) (e : Engine) (r : Rounds) (off : Nat) :
    Engine.regRead d { e with rounds := r } off = Engine.regRead d e off := rfl

/-- What an admitted write leads to: a command, an illegal word, DATA, or nothing
(43_digest_accumulator.md R209). -/
theorem regWrite_cases {off : Nat} {v : Word} {s t : State} (h : regWrite off v s = .next t) :
    (off = 0 ∧ ∃ i, decode v = .ok i ∧ exec i s = .next t) ∨
    (off = 0 ∧ (∃ x, decode v = .error x) ∧ t = s.reject .illegal) ∨
    (off = 8 ∧ t = s.writeData v) ∨ t = s := by
  unfold regWrite at h
  split at h
  · next h0 =>
    unfold issue at h
    split at h
    · next i hd => exact .inl ⟨h0, i, hd, h⟩
    · next x hx => cases h; exact .inr (.inl ⟨h0, ⟨x, hx⟩, rfl⟩)
  · split at h
    · next h8 => cases h; exact .inr (.inr (.inl ⟨h8, rfl⟩))
    · cases h; exact .inr (.inr (.inr rfl))

/-- Everything a host event can do when it has a step: a read or a poll turn, nothing, a command, an
illegal word, a write to DATA, or a reset (20_memory.md R71). -/
theorem hostMove_cases {ev : HostEvent} {s t : State} (h : hostMove ev s = .next t) :
    (∃ v, t = s.giveHost v) ∨
    (∃ v, t = { s.giveHost v with queue := .poll :: s.queue }) ∨
    t = s ∨
    (∃ v i, ev = .write s.base 4 v ∧ decode v = .ok i ∧ exec i s = .next t) ∨
    (∃ v, ev = .write s.base 4 v ∧ (∃ x, decode v = .error x) ∧ t = s.reject .illegal) ∨
    (∃ v, ev = .write (s.base + 8) 4 v ∧ t = s.writeData v) ∨
    (ev = .reset ∧ t = s.platformReset) := by
  cases ev with
  | read a n =>
    simp only [hostMove, busRead] at h
    split at h
    · cases h; exact .inl ⟨_, rfl⟩
    · split at h
      · cases h
      · split at h
        · cases h
        · cases h; exact .inl ⟨_, rfl⟩
  | write a n v =>
    simp only [hostMove, busWrite] at h
    split at h
    · cases h; exact .inr (.inr (.inl rfl))
    · next hw =>
      split at h
      · cases h
      · next hn =>
        split at h
        · cases h
        · have hn' : n = 4 := by simpa using hn
          have hw' := (inWindow_iff s.base a).1 (by simpa using hw)
          have ha : a = s.base + (a - s.base) := by omega
          subst hn'
          rcases regWrite_cases h with ⟨h0, i, hd, hx⟩ | ⟨h0, hi, rfl⟩ | ⟨h8, rfl⟩ | rfl
          · have e : a = s.base := by omega
            exact .inr (.inr (.inr (.inl ⟨v, i, by rw [e], hd, hx⟩)))
          · have e : a = s.base := by omega
            exact .inr (.inr (.inr (.inr (.inl ⟨v, by rw [e], hi, rfl⟩))))
          · exact .inr (.inr (.inr (.inr (.inr (.inl ⟨v, by rw [ha, h8], rfl⟩)))))
          · exact .inr (.inr (.inl rfl))
  | poll =>
    simp only [hostMove, pollOnce] at h
    split at h
    · cases h; exact .inl ⟨_, rfl⟩
    · cases h; exact .inr (.inl ⟨_, rfl⟩)
  | reset =>
    cases h
    exact .inr (.inr (.inr (.inr (.inr (.inr ⟨rfl, rfl⟩)))))

/-- A host event faults only where it is an access that R62 does not admit (20_memory.md R62). -/
theorem hostMove_fault {ev : HostEvent} {s : State} {f : Fault} (h : hostMove ev s = .fault f) :
    ev.unadmitted s.base := by
  cases ev with
  | read a n =>
    simp only [hostMove, busRead] at h
    split at h
    · cases h
    · next hw =>
      refine ⟨by simpa using hw, ?_⟩
      split at h
      · next hn => exact .inl hn
      · split at h
        · next ha => exact .inr ha
        · cases h
  | write a n v =>
    simp only [hostMove, busWrite] at h
    split at h
    · cases h
    · next hw =>
      refine ⟨by simpa using hw, ?_⟩
      split at h
      · next hn => exact .inl hn
      · split at h
        · next ha => exact .inr ha
        · simp only [regWrite, issue] at h
          split at h
          · split at h
            · next i _ =>
              obtain ⟨t, ht⟩ := exec_next i s
              rw [ht] at h
              cases h
            · cases h
          · split at h <;> cases h
  | poll =>
    simp only [hostMove, pollOnce] at h
    split at h <;> cases h
  | reset => cases h

/-- While BUSY = 1 a command leaves everything but the error record (60_exceptions.md R233). -/
theorem exec_busy {i : Instr} {s t : State} (hb : s.e.busy = true) (h : exec i s = .next t) :
    t = { s with e := { s.e with err := t.e.err, errCode := t.e.errCode } } := by
  cases i with
  | nop => cases h; rfl
  | clrerr => cases h; rfl
  | init =>
    simp only [exec, execInit_eq, if_pos hb] at h
    cases h
    rw [State.reject_eq]
  | update nb =>
    simp only [exec, execUpdate_eq, if_pos hb] at h
    cases h
    rw [State.reject_eq]
  | final =>
    simp only [exec, execFinal_eq, if_pos hb] at h
    cases h
    rw [State.reject_eq]

/-- While BUSY = 1 a host event other than the reset leaves the pending work and what it will be
folded into (42_compressor.md R186). -/
theorem hostMove_busy {ev : HostEvent} {s t : State} (hb : s.e.busy = true)
    (h : hostMove ev s = .next t) :
    (t.e.busy = true ∧ t.e.h = s.e.h ∧ t.e.pend = s.e.pend ∧ t.e.phase = s.e.phase ∧
      t.e.len = s.e.len ∧ t.e.buf = s.e.buf ∧ t.delay = s.delay ∧ t.base = s.base ∧
      (∀ x ∈ t.queue, x = .poll ∨ x ∈ s.queue)) ∨
    (ev = .reset ∧ t = s.platformReset) := by
  rcases hostMove_cases h with ⟨v, rfl⟩ | ⟨v, rfl⟩ | rfl | ⟨v, i, -, -, hx⟩ | ⟨v, -, -, rfl⟩ |
      ⟨v, -, rfl⟩ | ⟨rfl, rfl⟩
  · exact .inl (by simp +contextual [hb])
  · exact .inl (by simp +contextual [hb])
  · exact .inl (by simp +contextual [hb])
  · rw [exec_busy hb hx]
    exact .inl (by simp +contextual [hb])
  · exact .inl (by simp +contextual [hb])
  · exact .inl (by simp +contextual [hb])
  · exact .inr ⟨rfl, rfl⟩

/-- Everything a step that answers a next state can be (20_memory.md R74). -/
theorem next_cases {s t : State} (h : step s = .next t) :
    (s.e.busy = true ∧ t = s.complete) ∨ t = s ∨
    (∃ ev rest, s.hostTurn ev rest ∧ hostMove ev (s.taken rest) = .next t) := by
  rcases step_cases s with ⟨hc, h1⟩ | ⟨hc, hq, h1⟩ | ⟨ev, rest, hc, hq, h1⟩
  · rw [h1] at h
    cases h
    exact .inl ⟨by simp [completionTurn] at hc; exact hc.1, rfl⟩
  · rw [h1] at h
    cases h
    exact .inr (.inl rfl)
  · refine .inr (.inr ⟨ev, rest, ⟨hq, fun hb h0 => ?_⟩, h1 ▸ h⟩)
    simp [completionTurn, hb, h0] at hc

/-- A run goes on from the state the first step answers. -/
theorem run_next {s t : State} (n : Nat) (h : step s = .next t) :
    Host.Core.run core (n + 1) s = Host.Core.run core n t := by
  have h' : core.step s = .next t := h
  simp only [Host.Core.run, h']

/-- A run stops at the first fault. -/
theorem run_fault {s : State} {f : Fault} (n : Nat) (h : step s = .fault f) :
    Host.Core.run core (n + 1) s = .fault f := by
  have h' : core.step s = .fault f := h
  simp only [Host.Core.run, h']

@[simp] theorem run_zero (s : State) : Host.Core.run core 0 s = .next s := rfl

/-- Two runs, one after the other. -/
theorem run_add {s t : State} {m : Nat} (n : Nat) (h : Host.Core.run core m s = .next t) :
    Host.Core.run core (m + n) s = Host.Core.run core n t := by
  induction m generalizing s with
  | zero =>
    rw [run_zero] at h
    injection h with h
    rw [Nat.zero_add, h]
  | succ m ih =>
    rw [Nat.succ_add]
    cases hs : step s with
    | next u => rw [run_next _ hs]; rw [run_next _ hs] at h; exact ih h
    | fault f => rw [run_fault _ hs] at h; cases h
    | refused r =>
      have h' : core.step s = .refused r := hs
      simp only [Host.Core.run, h'] at h
      cases h

/-- STATUS bit 0 is BUSY, so the poll loop ends exactly there (10_state.md R38, 30_encoding.md R101). -/
theorem status_bit0 (e : Engine) : e.status &&& 1 = 0 ↔ e.busy = false := by
  have key : ∀ (b1 b2 : Bool) (p : BitVec 2) (c : BitVec 4) (x : BitVec 6),
      ((BitVec.ofBool b1).setWidth 32 ||| ((BitVec.ofBool b2).setWidth 32 <<< 1) |||
        (p.setWidth 32 <<< 2) ||| (c.setWidth 32 <<< 4) ||| (x.setWidth 32 <<< 8) : Word) &&& 1 =
      (BitVec.ofBool b1).setWidth 32 := by
    intro b1 b2 p c x
    apply BitVec.eq_of_getLsbD_eq
    intro i hi
    cases i with
    | zero => cases b1 <;> simp
    | succ i => cases b1 <;> simp [BitVec.getLsbD_one]
  unfold Engine.status
  rw [key]
  cases e.busy <;> decide

end Sys2Proof.Machine
end

