-- ==== Sys2Proof/Tests/Slice0.lean ====
section
/-! SUPPORT. The model's own tests, with values from spec/95_test_vectors.md, and for every statement that has hypotheses a witness that meets them. -/

open Sys2Proof Sys2Proof.Machine

namespace Sys2Proof.Tests

/-! Small states: the window at 0x100, no host event to come. -/

/-- After reset. -/
def idle : State := State.resetAt 0x100

/-- ABSORB with LEN = `len`, `n` bytes 0x61 in BUF, and DATA = `d`. -/
def absorb (len n : Nat) (d : Word) : State :=
  { idle with e := { Engine.reset with
      phase := .absorb, len := len, buf := List.replicate n 0x61#8, data := d } }

/-- DONE and not busy, the digest state of the empty message in H. -/
def done : State :=
  { idle with e := { Engine.reset with phase := .done, h := digestState [] } }

/-- DONE and busy, the block of the empty message pending, `n` host events before the completion. -/
def busy (n : Nat) : State :=
  { idle with
    e := { Engine.reset with phase := .done, busy := true, pend := blocks (tail [] 0) }
    delay := n }

/-- `s` with the error `c` recorded. -/
def withError (c : ErrCode) (s : State) : State :=
  { s with e := { s.e with err := true, errCode := c } }

/-- `s` with host events to come. -/
def hosted (q : List HostEvent) (s : State) : State := { s with queue := q }

/-- STATUS after the word `w` is written to CMD as the next step. -/
def statusAfter (w : Nat) (s : State) : Option Word :=
  match step (s.withFetchWord 32 w) with
  | .next t => some t.e.status
  | _ => none

/-- BUF and PEND after the word `w` is written to CMD as the next step. -/
def bytesAfter (w : Nat) (s : State) : List (List Byte) :=
  match step (s.withFetchWord 32 w) with
  | .next t => t.e.buf :: t.e.pend
  | _ => []

/-- STATUS and H in the state that was answered. -/
def statusAndHash : Result → Option (Word × HashState)
  | .next t => some (t.e.status, t.e.h)
  | _ => none

/-- The four starting states of 95_test_vectors.md V17, DATA = 0xAB123456. -/
def matrix : List State :=
  [idle.writeData 0xab123456#32, absorb 0 0 0xab123456#32, done.writeData 0xab123456#32,
   (busy 1).writeData 0xab123456#32]

/-! Well-formedness: the one check, and the terms it refuses. -/

theorem test_wellFormed_update_refused :
    Instr.wellFormed (.update 8) = false ∧ Instr.wellFormed (.update 7) = true := by decide

theorem test_legal_update_refused :
    Instr.legal (.update 0) = false ∧ Instr.legal (.update 5) = false ∧
    Instr.legal (.update 1) = true ∧ Instr.legal (.update 4) = true := by decide

/-! Decoding: words written out field by field, RSVD (25 bits), NB (3 bits), OP (4 bits)
(30_encoding.md R91, R93), and the decode table of V16. -/

theorem test_decode_framer_family :
    decode (0#25 ++ 0b001#3 ++ 0b0010#4) = .ok (.update 1) ∧
    decode (0#25 ++ 0b100#3 ++ 0b0010#4) = .ok (.update 4) ∧
    decode (0#25 ++ 0b111#3 ++ 0b0010#4) = .ok (.update 7) ∧
    decode (0#25 ++ 0b000#3 ++ 0b0011#4) = .ok .final := by decide

theorem test_decode_accumulator_family :
    decode (0#25 ++ 0b000#3 ++ 0b0000#4) = .ok .nop ∧
    decode (0#25 ++ 0b000#3 ++ 0b0001#4) = .ok .init ∧
    decode (0#25 ++ 0b000#3 ++ 0b0100#4) = .ok .clrerr := by decide

theorem test_decode_illegal :
    decode 0x00000005#32 = .error .reservedOp ∧ decode 0x0000000f#32 = .error .reservedOp ∧
    decode 0x00000011#32 = .error .nbOutsideUpdate ∧
    decode 0x00000014#32 = .error .nbOutsideUpdate ∧
    decode 0x00000080#32 = .error .reservedBits ∧
    decode 0x80000002#32 = .error .reservedBits := by decide

theorem test_encode_table :
    [Instr.nop, .init, .update 1, .update 2, .update 3, .update 4, .final, .clrerr].map encode =
      [0x00#32, 0x01#32, 0x12#32, 0x22#32, 0x32#32, 0x42#32, 0x03#32, 0x04#32] := by decide

theorem test_decodeTableWord :
    decodeTableWord 32 0x42 = some (.update 4) ∧ decodeTableWord 32 5 = none ∧
    decodeTableWord 4 3 = some .final := by decide

/-! The commands: the rows of V17, V18 and P4, STATUS after one write to CMD. -/

theorem test_nop : matrix.map (statusAfter 0x00) =
    [some 0x00#32, some 0x04#32, some 0x08#32, some 0x09#32] := by decide

theorem test_init : matrix.map (statusAfter 0x01) =
    [some 0x04#32, some 0x04#32, some 0x04#32, some 0x2b#32] := by decide

theorem test_update_matrix :
    matrix.map (statusAfter 0x12) = [some 0x32#32, some 0x104#32, some 0x3a#32, some 0x2b#32] ∧
    matrix.map (statusAfter 0x42) = [some 0x32#32, some 0x404#32, some 0x3a#32, some 0x2b#32] ∧
    matrix.map (statusAfter 0x02) = [some 0x32#32, some 0x46#32, some 0x3a#32, some 0x2b#32] ∧
    matrix.map (statusAfter 0x52) = [some 0x32#32, some 0x46#32, some 0x3a#32, some 0x2b#32] := by
  decide

theorem test_update_boundaries :
    bytesAfter 0x32 (absorb 0 0 0x61626300#32) = [[0x61#8, 0x62#8, 0x63#8]] ∧
    bytesAfter 0x42 (absorb 62 62 0x31323334#32) =
      [[0x33#8, 0x34#8], List.replicate 62 0x61#8 ++ [0x31#8, 0x32#8]] ∧
    [statusAfter 0x42 (absorb 62 62 0), statusAfter 0x42 (absorb 60 60 0),
      statusAfter 0x32 (absorb 60 60 0), statusAfter 0x12 (absorb 63 63 0),
      statusAfter 0x42 (absorb 63 63 0), statusAfter 0x32 (absorb (2 ^ 61 - 3) 61 0),
      statusAfter 0x22 (absorb (2 ^ 61 - 3) 61 0), statusAfter 0x12 (absorb (2 ^ 61 - 1) 63 0)] =
    [some 0x205#32, some 0x05#32, some 0x3f04#32, some 0x05#32, some 0x305#32, some 0x3d56#32,
      some 0x3f04#32, some 0x3f56#32] := by decide +kernel

theorem test_final_matrix : matrix.map (statusAfter 0x03) =
    [some 0x32#32, some 0x09#32, some 0x3a#32, some 0x2b#32] := by decide

/-- V14 (a×55, a×56) and the last row of V18. -/
theorem test_final_tails :
    bytesAfter 0x03 (absorb 55 55 0) =
      [[], List.replicate 55 0x61#8 ++ [0x80#8] ++
        [0x00#8, 0x00#8, 0x00#8, 0x00#8, 0x00#8, 0x00#8, 0x01#8, 0xb8#8]] ∧
    bytesAfter 0x03 (absorb 56 56 0) =
      [[], List.replicate 56 0x61#8 ++ [0x80#8] ++ List.replicate 7 0x00#8,
        List.replicate 62 0x00#8 ++ [0x01#8, 0xc0#8]] ∧
    bytesAfter 0x03 (absorb (2 ^ 61 - 1) 63 0) =
      [[], List.replicate 63 0x61#8 ++ [0x80#8],
        List.replicate 56 0x00#8 ++ List.replicate 7 0xff#8 ++ [0xf8#8]] := by decide +kernel

theorem test_clrerr :
    matrix.map (statusAfter 0x04) = [some 0x00#32, some 0x04#32, some 0x08#32, some 0x09#32] ∧
    statusAfter 0x04 (withError .seq idle) = some 0x00#32 := by decide

/-- The ILLEGAL rows of V17, and lines 2 and 8 of P4: the first code is kept. -/
theorem test_illegal :
    matrix.map (statusAfter 0x05) = [some 0x12#32, some 0x16#32, some 0x1a#32, some 0x1b#32] ∧
    matrix.map (statusAfter 0x13) = [some 0x12#32, some 0x16#32, some 0x1a#32, some 0x1b#32] ∧
    matrix.map (statusAfter 0x80) = [some 0x12#32, some 0x16#32, some 0x1a#32, some 0x1b#32] ∧
    statusAfter 0x05 (withError .seq idle) = some 0x32#32 ∧
    statusAfter 0x13 (withError .arg done) = some 0x4a#32 := by decide

/-- The first command after reset is the one that is placed. -/
theorem test_first_step : statusAfter 0x01 State.reset = some 0x04#32 ∧
    step State.reset = .next State.reset := ⟨by decide, rfl⟩

/-! The register window: V19. -/

theorem test_reset_reads :
    [0x00, 0x04, 0x08, 0x0c, 0x10, 0x14, 0x18, 0x1c, 0x40, 0xfc].map (idle.e.regRead 7) =
      List.replicate 10 0x00#32 ∧
    [0x20, 0x24, 0x28, 0x2c, 0x30, 0x34, 0x38, 0x3c].map (idle.e.regRead 7) =
      [0x6a09e667#32, 0xbb67ae85#32, 0x3c6ef372#32, 0xa54ff53a#32, 0x510e527f#32, 0x9b05688c#32,
       0x1f83d9ab#32, 0x5be0cd19#32] := by decide

theorem test_len_reads : (absorb 66 2 0).e.regRead 7 0x10 = 0x42#32 ∧
    (absorb (2 ^ 61 - 1) 63 0).e.regRead 7 0x10 = 0xffffffff#32 ∧
    (absorb (2 ^ 61 - 1) 63 0).e.regRead 7 0x14 = 0x1fffffff#32 := by decide

theorem test_ignored_writes :
    [0x04, 0x20, 0x10, 0x14, 0x0c, 0xfc].map (fun off => regWrite off 5 idle) =
      List.replicate 6 (.next idle) := rfl

theorem test_unadmitted :
    busRead 0x104 2 idle = .fault (.wrongSize 2) ∧
    busRead 0x106 4 idle = .fault (.misaligned 6) ∧
    busWrite 0x100 1 0 idle = .fault (.wrongSize 1) := ⟨rfl, rfl, rfl⟩

/-! The functional units: V7 to V14 and V15. -/

theorem test_sigmas :
    [0x80000000#32, 0x61626380#32, 0x12345678#32].map smallSigma0 =
      [0x11002000#32, 0x940e90ef#32, 0xe7fce6ee#32] ∧
    [0x80000000#32, 0x61626380#32, 0x12345678#32].map smallSigma1 =
      [0x00205000#32, 0x7da86405#32, 0xa1f78649#32] ∧
    [0x80000000#32, 0x61626380#32, 0x12345678#32].map bigSigma0 =
      [0x20040200#32, 0x8dd59276#32, 0x66146474#32] ∧
    [0x80000000#32, 0x61626380#32, 0x12345678#32].map bigSigma1 =
      [0x02100040#32, 0xc0b865f2#32, 0x3561abda#32] := by decide

theorem test_rotate_shift_add :
    rotr 0x00000001#32 1 = 0x80000000#32 ∧ rotr 0x80000000#32 31 = 0x00000001#32 ∧
    shr 0xffffffff#32 10 = 0x003fffff#32 ∧
    scheduleSum 0xffffffff#32 0xffffffff#32 0xffffffff#32 0xffffffff#32 = 0x203ffffc#32 := by
  decide

/-- V9: words 16 to 19, 32, 48 and 63 of the schedule of the "abc" block. -/
theorem test_schedule_abc :
    [0, 15, 16, 17, 18, 19, 32, 48, 63].map
      (fun t => (schedule (tail [0x61#8, 0x62#8, 0x63#8] 3)).getD t 0) =
      [0x61626380#32, 0x00000018#32, 0x61626380#32, 0x000f0000#32, 0x7da86405#32, 0x600003c6#32,
       0x93f5997f#32, 0xfb3e89cb#32, 0x12b1edeb#32] := by decide +kernel

/-- V11: row 0 of the trace, from its schedule word 61626380. -/
theorem test_round_zero : roundWith (kWord 0) 0x61626380#32 (loadVars iv) =
    ⟨0x5d6aebcd#32, 0x6a09e667#32, 0xbb67ae85#32, 0x3c6ef372#32,
     0xfa2a4622#32, 0x510e527f#32, 0x9b05688c#32, 0x1f83d9ab#32⟩ := by decide

theorem test_block_counts : [0, 55, 56, 63, 64, 119, 120].map blockCount = [1, 1, 2, 2, 2, 2, 3] ∧
    [0, 3, 55, 56, 63, 64].map padZeros = [55, 52, 0, 63, 56, 55] := by decide

set_option maxRecDepth 100000 in
/-- V2: the digest of "abc". -/
theorem test_digest_abc : digestState [0x61#8, 0x62#8, 0x63#8] =
    ⟨0xba7816bf#32, 0x8f01cfea#32, 0x414140de#32, 0x5dae2223#32,
     0xb00361a3#32, 0x96177a9c#32, 0xb410ff61#32, 0xf20015ad#32⟩ := by decide +kernel

set_option maxRecDepth 100000 in
/-- V1, through the engine: the completion step of P1 leaves the digest of the empty message in H. -/
theorem test_completion_empty : statusAndHash (step (busy 0)) = some (0x08#32,
    ⟨0xe3b0c442#32, 0x98fc1c14#32, 0x9afbf4c8#32, 0x996fb924#32,
     0x27ae41e4#32, 0x649b934c#32, 0xa495991b#32, 0x7852b855#32⟩) := by decide +kernel

/-! Witnesses: for each statement with hypotheses, states and operands that meet all of them, at the
boundary values of each clause. -/

theorem witness_CommandWordsAreTheTable :
    ∀ i ∈ [Instr.nop, .init, .update 0, .update 7, .final, .clrerr], i.wellFormed = true := by
  decide

theorem witness_IllegalWordsAreRejected :
    illegalWord 0x00000080#32 ∧ illegalWord 0x80000002#32 ∧ illegalWord 0x00000005#32 ∧
    illegalWord 0x0000000f#32 ∧ illegalWord 0x00000011#32 ∧ illegalWord 0x00000074#32 ∧
    ¬ illegalWord 0x00000072#32 ∧ ¬ illegalWord 0x00000004#32 := by decide

theorem witness_StepRunsTheDecodedCommand :
    (hosted [.write 0x100 4 0x12#32] idle).hostTurn (.write idle.base 4 0x12#32) [] ∧
    (hosted [.write 0x100 4 0x12#32] (busy 1)).hostTurn (.write (busy 1).base 4 0x12#32) [] ∧
    decode 0x12#32 = .ok (.update 1) ∧
    decode (BitVec.ofNat 32 (0x72 % 2 ^ 32)) = .ok (.update 7) ∧
    decode (BitVec.ofNat 32 (0x72 % 2 ^ 4)) = .ok (.update 0) := by decide

theorem witness_ClrerrClearsTheErrorRecord :
    (idle.e.err = false ∧ idle.e.errCode = .none) ∧
    ((0x84#32).toNat % 16 = 4 ∧ (0x84#32).toNat / 128 ≠ 0 ∧ idle.e.err = false) ∧
    (withError .seq idle).e.status = 0x00000032#32 := by decide

theorem witness_InitStartsAMessage :
    (busy 0).e.busy = true ∧ idle.e.busy = false ∧ (absorb 63 63 0).e.busy = false ∧
    done.e.busy = false := by decide

theorem witness_UpdateFollowsItsRule_rejected :
    (0 < 8 ∧ 7 < 8) ∧ (busy 1).e.busy = true ∧ (idle.e.busy = false ∧ idle.e.phase ≠ .absorb) ∧
    (done.e.busy = false ∧ done.e.phase ≠ .absorb) ∧
    ((absorb 0 0 0).e.busy = false ∧ (absorb 0 0 0).e.phase = .absorb ∧
      ¬ (1 ≤ 0 ∧ 0 ≤ 4) ∧ ¬ (1 ≤ 5 ∧ 5 ≤ 4)) ∧
    ((absorb (2 ^ 61 - 1) 63 0).e.busy = false ∧ (absorb (2 ^ 61 - 1) 63 0).e.phase = .absorb ∧
      (1 ≤ 1 ∧ 1 ≤ 4) ∧ 2 ^ 61 - 1 < (absorb (2 ^ 61 - 1) 63 0).e.len + 1) := by decide

theorem witness_UpdateFollowsItsRule_accepted :
    ((absorb 59 59 0).e.accepts (.update 4) ∧
      ((absorb 59 59 0).e.buf ++ (bytes32 0).take 4).length < 64) ∧
    ((absorb 60 60 0).e.accepts (.update 4) ∧
      64 ≤ ((absorb 60 60 0).e.buf ++ (bytes32 0).take 4).length) ∧
    ((absorb 63 63 0).e.accepts (.update 1) ∧
      64 ≤ ((absorb 63 63 0).e.buf ++ (bytes32 0).take 1).length) ∧
    ((absorb 0 0 0x61626300#32).e.accepts (.update 3) ∧ (absorb 0 0 0x61626300#32).e.buf = [] ∧
      (absorb 0 0 0x61626300#32).e.len = 0 ∧ (absorb 0 0 0x61626300#32).e.err = false ∧
      (absorb 0 0 0x61626300#32).e.errCode = .none ∧
      (absorb 0 0 0x61626300#32).e.data = 0x61626300#32) := by decide

theorem witness_UpdateCornerCases :
    ((absorb 62 62 0).e.accepts (.update 4) ∧ (absorb 62 62 0).e.buf.length = 62) ∧
    ((absorb 60 60 0).e.accepts (.update 4) ∧ (absorb 60 60 0).e.buf.length = 60) ∧
    ((absorb 63 63 0).e.accepts (.update 4) ∧ (absorb 63 63 0).e.buf.length ≤ 63) ∧
    ((absorb 0 0 0xab123456#32).e.accepts (.update 1) ∧
      0xabffffff#32 >>> (8 * (4 - 1)) = (absorb 0 0 0xab123456#32).e.data >>> (8 * (4 - 1))) ∧
    (¬ idle.e.accepts (.update 1) ∧ ¬ (absorb 0 0 0).e.accepts (.update 5)) ∧
    ((absorb (2 ^ 61 - 1 - 2) 61 0).e.busy = false ∧
      (absorb (2 ^ 61 - 1 - 2) 61 0).e.phase = .absorb ∧
      (absorb (2 ^ 61 - 1 - 2) 61 0).e.len = 2 ^ 61 - 1 - 2) := by decide

theorem witness_UpdateAppendsBytesInOrder :
    ((absorb 59 59 0x31323334#32).e.accepts (.update 4) ∧
      (absorb 59 59 0x31323334#32).e.data = be32 0x31 0x32 0x33 0x34 ∧
      (absorb 59 59 0x31323334#32).e.buf.length + 4 < 64) ∧
    ((absorb 60 60 0x31323334#32).e.accepts (.update 4) ∧
      ¬ (absorb 60 60 0x31323334#32).e.buf.length + 4 < 64) := by decide

/-- The state of the example of 40_block_framer.md R135: "abc" in BUF. -/
def openAbc : State :=
  { absorb 3 0 0 with e := { (absorb 3 0 0).e with buf := [0x61#8, 0x62#8, 0x63#8] } }

theorem witness_FinalFollowsItsRule :
    (busy 1).e.busy = true ∧ (idle.e.busy = false ∧ idle.e.phase ≠ .absorb) ∧
    (openAbc.e.accepts .final ∧ openAbc.e.buf = [0x61#8, 0x62#8, 0x63#8] ∧ openAbc.e.len = 3 ∧
      openAbc.e.err = false ∧ openAbc.e.errCode = .none) := by decide

theorem witness_FinalPlacesTheTailBlocks :
    ((absorb 0 0 0).e.accepts .final ∧ (absorb 0 0 0).e.buf.length ≤ 55) ∧
    ((absorb 55 55 0).e.accepts .final ∧ (absorb 55 55 0).e.buf.length = 55) ∧
    ((absorb 56 56 0).e.accepts .final ∧ (absorb 56 56 0).e.buf.length = 56) ∧
    ((absorb 63 63 0).e.accepts .final ∧ (absorb 63 63 0).e.buf.length = 63) := by decide

theorem witness_RejectKeepsTheFirstError :
    idle.e.err = false ∧ (withError .len idle).e.err = true := by decide

theorem witness_RejectedCommandsOnlyRecord :
    ¬ (busy 0).e.accepts .init ∧ ¬ (busy 0).e.accepts .final ∧ ¬ idle.e.accepts .final ∧
    ¬ idle.e.accepts (.update 1) ∧ ¬ (absorb 0 0 0).e.accepts (.update 0) ∧
    ¬ (absorb (2 ^ 61 - 1) 63 0).e.accepts (.update 1) ∧
    ¬ (withError .arg (absorb 0 0 0)).e.accepts (.update 5) := by decide

theorem witness_ErrorPriority_word_and_phase :
    (idle.e.err = false ∧ illegalWord 0x13#32) ∧
    ((busy 1).e.err = false ∧ ¬ illegalWord 0x52#32 ∧ (0x52#32).toNat % 16 = 2 ∧
      (busy 1).e.busy = true) ∧
    (¬ illegalWord 0x04#32 ∧ (0x04#32).toNat % 16 = 4) ∧
    (¬ illegalWord 0x01#32 ∧ (0x01#32).toNat % 16 = 1 ∧ idle.e.busy = false) ∧
    (¬ illegalWord 0x03#32 ∧ (0x03#32).toNat % 16 = 3 ∧ idle.e.phase ≠ .absorb ∧
      (absorb 0 0 0).e.phase = .absorb) := by decide

theorem witness_ErrorPriority_count_and_length :
    ((absorb 0 0 0).e.err = false ∧ (absorb 0 0 0).e.busy = false ∧
      (absorb 0 0 0).e.phase = .absorb) ∧
    (¬ illegalWord 0x02#32 ∧ (0x02#32).toNat % 16 = 2 ∧ (0x02#32).toNat / 16 % 8 = 0) ∧
    (¬ illegalWord 0x52#32 ∧ (0x52#32).toNat / 16 % 8 = 5) ∧
    (¬ illegalWord 0x12#32 ∧ (0x12#32).toNat % 16 = 2 ∧ (0x12#32).toNat / 16 % 8 = 1) ∧
    (¬ illegalWord 0x42#32 ∧ (0x42#32).toNat % 16 = 2 ∧ (0x42#32).toNat / 16 % 8 = 4 ∧
      2 ^ 61 - 1 < (absorb (2 ^ 61 - 1) 63 0).e.len + (0x42#32).toNat / 16 % 8) := by decide

theorem witness_CommandsLeaveTheirFrame :
    (∃ t, exec (.update 4) (absorb 60 60 0) = .next t) ∧ Instr.update 4 ≠ .init ∧
    (∃ t, exec .init done = .next t ∧ t.e.busy = done.e.busy) ∧
    (∃ t, exec (.update 3) (absorb 60 60 0) = .next t ∧ t.e.busy = (absorb 60 60 0).e.busy) :=
  ⟨⟨_, rfl⟩, by decide, ⟨_, rfl, rfl⟩, ⟨_, rfl, rfl⟩⟩

theorem witness_NopAndClrerrFrame :
    (∃ t, exec .nop (busy 1) = .next t) ∧ (∃ t, exec .clrerr (withError .seq idle) = .next t) ∧
    0x00 ≠ 0x04 ∧ 0x3c ≠ 0x04 := ⟨⟨_, rfl⟩, ⟨_, rfl⟩, by decide, by decide⟩

theorem witness_InitFrame :
    (∃ t, exec .init done = .next t) ∧ done.e.busy = false ∧
    (∃ t, exec .init (busy 0) = .next t) ∧ (busy 0).e.busy = true ∧
    (0x08 ≠ 0x04 ∧ 0x08 ≠ 0x10 ∧ 0x08 ≠ 0x14 ∧ ¬ digestOffset 0x08) ∧
    (¬ digestOffset 0x1c ∧ ¬ digestOffset 0x40) :=
  ⟨⟨_, rfl⟩, rfl, ⟨_, rfl⟩, rfl, by decide, by decide⟩

theorem witness_UpdateFrame :
    (∃ t, exec (.update 3) (absorb 60 60 0) = .next t ∧ t.e.busy = (absorb 60 60 0).e.busy) ∧
    (absorb 60 60 0).e.accepts (.update 3) ∧
    (∃ t, exec (.update 1) idle = .next t) ∧ ¬ idle.e.accepts (.update 1) ∧
    (¬ digestOffset 0x08 ∧ digestOffset 0x20 ∧ digestOffset 0x3c) :=
  ⟨⟨_, rfl, rfl⟩, by decide, ⟨_, rfl⟩, by decide, by decide⟩

theorem witness_FinalFrame :
    (∃ t, exec .final (absorb 56 56 0) = .next t) ∧ (absorb 56 56 0).e.accepts .final ∧
    (∃ t, exec .final idle = .next t ∧ t.e.busy = idle.e.busy) ∧ ¬ idle.e.accepts .final ∧
    (¬ digestOffset 0x10 ∧ digestOffset 0x3c) :=
  ⟨⟨_, rfl⟩, by decide, ⟨_, rfl, rfl⟩, by decide, by decide⟩

/-- One offset for every clause, the ends of each range among them. -/
theorem witness_ReadsReturnTheRegisters :
    ∀ off ∈ [0x00, 0x04, 0x08, 0x0c, 0x10, 0x14, 0x18, 0x1c, 0x20, 0x24, 0x28, 0x2c, 0x30, 0x34,
        0x38, 0x3c, 0x40, 0xfc],
      off < 256 ∧ off % 4 = 0 ∧
      (hosted [.read (0x100 + off) 4] idle).hostTurn (.read (idle.base + off) 4) [] ∧
      (hosted [.read (0x100 + off) 4] (busy 1)).hostTurn (.read ((busy 1).base + off) 4) [] := by
  decide

theorem witness_WritesReachOnlyCmdAndData :
    ∀ off ∈ [0x00, 0x04, 0x08, 0x0c, 0xfc],
      off < 256 ∧ off % 4 = 0 ∧
      (hosted [.write (0x100 + off) 4 5] idle).hostTurn (.write (idle.base + off) 4 5) [] ∧
      (hosted [.write (0x100 + off) 4 5] (busy 1)).hostTurn
        (.write ((busy 1).base + off) 4 5) [] := by decide

theorem witness_StatusWordFields :
    (absorb 63 63 0).e.buf.length = 63 ∧ idle.e.buf.length = 0 := by decide

theorem witness_DataReadsBack :
    (hosted [.write 0x108 4 5, .read 0x108 4] idle).hostTurn
      (.write (idle.base + 0x08) 4 5) [.read (idle.base + 0x08) 4] ∧
    (hosted [.write 0x108 4 5, .read 0x108 4] (busy 1)).hostTurn
      (.write ((busy 1).base + 0x08) 4 5) [.read ((busy 1).base + 0x08) 4] := by decide

theorem witness_UnadmittedAccessesAreStuck :
    (idle.base ≤ 0x100 ∧ 0x1ff ≤ idle.base + 0xff ∧ 2 ≠ 4) ∧
    (hosted [.read 0x100 2] idle).hostTurn (.read 0x100 2) [] ∧
    (hosted [.write 0x1ff 1 0] (busy 1)).hostTurn (.write 0x1ff 1 0) [] ∧
    (hosted [.read 0x101 4] idle).hostTurn (.read 0x101 4) [] ∧ (0x101 - idle.base) % 4 ≠ 0 ∧
    (hosted [.write 0x1ff 4 0] idle).hostTurn (.write 0x1ff 4 0) [] ∧
    (0x1ff - idle.base) % 4 ≠ 0 := by decide

theorem witness_OutsideTheWindowIsNotTheEngine :
    0xff < idle.base ∧ idle.base + 0xff < 0x200 ∧
    (hosted [.write 0xff 1 0] idle).hostTurn (.write 0xff 1 0) [] ∧
    (hosted [.read 0x200 4] (busy 1)).hostTurn (.read 0x200 4) [] := by decide

theorem witness_CompletionFoldsThePendingBlocks :
    ((busy 5).e.busy = true ∧ (busy 5).queue = []) ∧
    ((hosted [.poll] (busy 0)).e.busy = true ∧ (hosted [.poll] (busy 0)).delay = 0) ∧
    (done.e.busy = false ∧ done.queue = []) := by decide

theorem witness_CompletionComes :
    (busy 0).e.busy = true ∧ (hosted [.poll, .read 0x101 4] (busy 2)).e.busy = true ∧
    (hosted [.poll, .reset] (busy 2)).e.busy = true := by decide

theorem witness_RoundLoopComputesCompress :
    ∃ v : Working, v = (List.range 64).foldl (roundAt (schedule (pad [])))
      { a := iv.h0, b := iv.h1, c := iv.h2, d := iv.h3, e := iv.h4, f := iv.h5, g := iv.h6,
        h := iv.h7 } := ⟨_, rfl⟩

/-- A STATUS read and a DIGEST read with BUSY = 0 are no free reads; a DIGEST read with BUSY = 1
and a read outside the window are. -/
theorem witness_RoundStateIsNeverObserved :
    (∃ t, step (hosted [.read 0x104 4] (busy 1)) = .next t) ∧
    ¬ (hosted [.read 0x104 4] (busy 1)).freeRead ∧
    (∃ t, step (hosted [.read 0x120 4] done) = .next t) ∧
    ¬ (hosted [.read 0x120 4] done).freeRead ∧
    (hosted [.read 0x13c 4] (busy 1)).freeRead ∧ (hosted [.read 0x200 4] done).freeRead ∧
    (hosted [.read 0x104 4] (busy 1)).e.busy = true ∧
    (∃ t, step (hosted [.read 0x120 4] done) = .next t ∧ t.e.busy = false) := by
  refine ⟨⟨_, rfl⟩, ?_, ⟨_, rfl⟩, ?_, ⟨0x13c, 4, [], by decide, by decide⟩,
    ⟨0x200, 4, [], by decide, by decide⟩, rfl, ⟨_, rfl, rfl⟩⟩
  · rintro ⟨a, n, r, h, hx⟩
    cases h
    revert hx
    decide
  · rintro ⟨a, n, r, h, hx⟩
    cases h
    revert hx
    decide

theorem witness_EveryPollEnds :
    (hosted [.poll] (busy 3)).queue = [.poll] ∧ (hosted [.poll] (busy 3)).e.busy = true ∧
    (hosted [.poll] done).queue = [.poll] ∧ (hosted [.poll] done).e.busy = false := by decide

/-- The third write of program P6, with each of its two outcomes. -/
theorem witness_UnpolledCommandHasTwoOutcomes :
    ∀ n ∈ [0, 1], (busy n).e.busy = true ∧ decode 0x01#32 = .ok .init ∧
      Instr.init ≠ .nop ∧ Instr.init ≠ .clrerr ∧
      (hosted [.write 0x100 4 0x01#32, .poll] (busy n)).queue =
        .write (busy n).base 4 0x01#32 :: [.poll] ∧ ((busy n).delay = 0 ↔ n = 0) := by decide

theorem witness_PlatformResetFromEveryState :
    (hosted [.reset] (busy 1)).hostTurn .reset [] ∧
    (hosted [.reset] (withError .arg (absorb 63 63 5))).hostTurn .reset [] := by decide

set_option maxRecDepth 100000 in
/-- H changes by the completion, by INIT, and by reset. -/
theorem witness_HashStateHasThreeWriters :
    (∃ t, step (busy 0) = .next t ∧ t.e.h ≠ (busy 0).e.h) ∧
    (∃ t, step (hosted [.write 0x100 4 1] done) = .next t ∧ t.e.h ≠ done.e.h) ∧
    (∃ t, step (hosted [.reset] done) = .next t ∧ t.e.h ≠ done.e.h) :=
  ⟨⟨_, rfl, by decide +kernel⟩, ⟨_, rfl, by decide +kernel⟩, ⟨_, rfl, by decide +kernel⟩⟩

theorem witness_DataAndLenHaveTheirWriters :
    (∃ t, step (hosted [.write 0x108 4 5] idle) = .next t ∧ t.e.data ≠ idle.e.data) ∧
    (∃ t, step (hosted [.reset] (absorb 0 0 5)) = .next t ∧ t.e.data ≠ (absorb 0 0 5).e.data) ∧
    (∃ t, step (hosted [.write 0x100 4 0x12] (absorb 0 0 5)) = .next t ∧
      t.e.len ≠ (absorb 0 0 5).e.len) ∧
    (∃ t, step (hosted [.write 0x100 4 1] (absorb 3 3 5)) = .next t ∧
      t.e.len ≠ (absorb 3 3 5).e.len) ∧
    (∃ t, step (hosted [.reset] (absorb 3 3 5)) = .next t ∧ t.e.len ≠ (absorb 3 3 5).e.len) :=
  ⟨⟨_, rfl, by decide⟩, ⟨_, rfl, by decide⟩, ⟨_, rfl, by decide⟩, ⟨_, rfl, by decide⟩,
    ⟨_, rfl, by decide⟩⟩

theorem witness_ErrorRecordWriters :
    (∃ t, step (hosted [.write 0x100 4 4] (withError .arg idle)) = .next t ∧
      (withError .arg idle).e.err = true) ∧
    (∃ t, step (hosted [.write 0x100 4 5] idle) = .next t ∧ idle.e.err = false ∧
      t.e.err = true) ∧
    (∃ t, step (hosted [.write 0x100 4 3] idle) = .next t ∧ t.e.err = true) :=
  ⟨⟨_, rfl, by decide⟩, ⟨_, rfl, by decide, by decide⟩, ⟨_, rfl, by decide⟩⟩

theorem witness_ResetIsWellFormed : 0 % 256 = 0 ∧ 0x100 % 256 = 0 := by decide

theorem witness_EveryStepKeepsWellFormed :
    (busy 0).Wf ∧ (∃ t, step (busy 0) = .next t) ∧
    (hosted [.write 0x100 4 0x42] (absorb 60 60 0)).Wf ∧
    (∃ t, step (hosted [.write 0x100 4 0x42] (absorb 60 60 0)) = .next t) ∧
    (hosted [.write 0x100 4 3] (absorb 56 56 0)).Wf ∧
    (∃ t, step (hosted [.write 0x100 4 3] (absorb 56 56 0)) = .next t) :=
  ⟨by decide +kernel, ⟨_, rfl⟩, by decide +kernel, ⟨_, rfl⟩, by decide +kernel, ⟨_, rfl⟩⟩

theorem holds_absorb (n : Nat) (d : Word) :
    (absorb n n d).e.Holds (List.replicate n 0x61#8) := by
  refine ⟨by simp [absorb], [], rfl, ?_, rfl⟩
  simp [absorb, Engine.reset]

theorem witness_EveryStepTracksTheMessage :
    ((hosted [.write 0x100 4 0x42] (absorb 60 60 0)).Wf ∧
      (hosted [.write 0x100 4 0x42] (absorb 60 60 0)).e.Holds (List.replicate 60 0x61#8) ∧
      ∃ t, step (hosted [.write 0x100 4 0x42] (absorb 60 60 0)) = .next t) ∧
    (idle.Wf ∧ idle.e.Holds [] ∧ ∃ t, step idle = .next t) ∧
    ((busy 0).Wf ∧ (busy 0).e.Holds [] ∧ ∃ t, step (busy 0) = .next t) :=
  ⟨⟨by decide +kernel, holds_absorb 60 0, _, rfl⟩,
   ⟨by decide +kernel, ⟨rfl, trivial⟩, _, rfl⟩,
   ⟨by decide +kernel, ⟨rfl, rfl⟩, _, rfl⟩⟩

/-- The three kinds of step EveryStepTracksTheMessage tells apart: an accepted INIT and a reset, an
accepted UPDATE of 1 or 4 bytes, and any other. -/
theorem witness_EveryStepTracksTheMessage_events :
    (hosted [.write 0x100 4 1] done).beginsMessage ∧
    (hosted [.reset] (busy 1)).beginsMessage ∧
    (hosted [.write 0x100 4 0x42] (absorb 60 60 0)).appendsBytes 4 ∧
    (hosted [.write 0x100 4 0x12] (absorb 63 63 0)).appendsBytes 1 ∧
    ¬ idle.beginsMessage ∧ (∀ nb, ¬ idle.appendsBytes nb) := by
  refine ⟨⟨[], .inl (by decide)⟩, ⟨[], .inr (by decide)⟩, ⟨[], by decide, by decide⟩,
    ⟨[], by decide, by decide⟩, ?_, ?_⟩
  · rintro ⟨r, ⟨⟨h, -⟩, -⟩ | ⟨h, -⟩⟩ <;> cases h
  · rintro nb ⟨r, ⟨h, -⟩, -⟩
    cases h

theorem holds_done : done.e.Holds [] := by
  refine ⟨rfl, ?_⟩
  show fold (digestState []) [] = digestState []
  rw [fold_nil]

theorem witness_ReadyDigestIsTheMessages :
    (done.Wf ∧ done.e.Holds [] ∧ done.e.busy = false ∧ done.e.phase = .done) ∧
    ((absorb 63 63 0).Wf ∧ (absorb 63 63 0).e.Holds (List.replicate 63 0x61#8) ∧
      (absorb 63 63 0).e.busy = false ∧ (absorb 63 63 0).e.phase = .absorb) :=
  ⟨⟨by decide +kernel, holds_done, rfl, rfl⟩, ⟨by decide +kernel, holds_absorb 63 0, rfl, rfl⟩⟩

theorem witness_WordsAndBytesAreBigEndian : 0 < 4 ∧ 3 < 4 ∧ 0 < 2 ^ 64 ∧ 2 ^ 64 - 1 < 2 ^ 64 := by
  decide

theorem witness_RotateAndShiftBits :
    (0 < 1 ∧ 1 < 32 ∧ 0 < 32) ∧ (0 < 31 ∧ 31 < 32 ∧ 31 < 32) := by decide

theorem witness_SigmaFunctions : 0 < 32 ∧ 31 < 32 := by decide

theorem witness_ChooseAndMajority : 0 < 32 ∧ 31 < 32 := by decide

theorem witness_ConstantTablesAreRootsOfPrimes : 0 < 64 ∧ 63 < 64 ∧ 0 < 8 ∧ 7 < 8 := by decide

theorem witness_ScheduleFollowsTheRecurrence :
    (List.replicate 64 0x61#8 : Block).length = 64 ∧ 0 < 16 ∧ 15 < 16 ∧ (16 ≤ 16 ∧ 16 < 64) ∧
    (16 ≤ 63 ∧ 63 < 64) := by decide

theorem witness_SlidingWindowGivesTheSchedule : 0 < 64 ∧ 15 < 64 ∧ 16 < 64 ∧ 63 < 64 := by decide

theorem witness_PaddedLength :
    ((List.replicate 55 0x61#8).length + 9) % 64 = 0 ∧
    ((List.replicate 3 0x61#8).length + 1 + 52) % 64 = 56 ∧
    tail [0x61#8] 1 ∈ blocks (pad [0x61#8]) := by decide +kernel

theorem witness_PaddingIsRecovered :
    ([] : List Byte).length ≤ 2 ^ 61 - 1 ∧ (List.replicate 56 0x61#8).length ≤ 2 ^ 61 - 1 := by
  decide

theorem witness_TailEndsThePadding :
    ((List.replicate 55 0x61#8).length ≤ 63 ∧ (List.replicate 64 0x61#8).length % 64 = 0 ∧
      119 = (List.replicate 64 0x61#8).length + (List.replicate 55 0x61#8).length) ∧
    ((List.replicate 56 0x61#8).length ≤ 63 ∧
      56 = ([] : List Byte).length + (List.replicate 56 0x61#8).length) ∧
    (List.replicate 63 0x61#8).length ≤ 63 := by decide

theorem witness_IncrementalConsistency :
    ([] : List Byte).length % 64 = 0 ∧ (List.replicate 64 0x61#8).length % 64 = 0 := by decide

theorem witness_DigestBytesAreBigEndian : (0 < 8 ∧ 0 < 4) ∧ (7 < 8 ∧ 3 < 4) := by decide

/-- The message a×5 as groups of 1 and 4 bytes, and the empty message. -/
theorem witness_AnySplitReadsTheDigest :
    ∀ groups ∈ [[List.replicate 1 0x61#8, List.replicate 4 0x61#8], []],
      (∀ g ∈ groups, 1 ≤ g.length ∧ g.length ≤ 4) ∧ groups.flatten.length ≤ 2 ^ 61 - 1 ∧
      done.e.busy = false ∧ (hosted (hashSplit 0x100 groups) done).queue =
        hashSplit (hosted (hashSplit 0x100 groups) done).base groups := by decide

theorem witness_HashProgramReadsTheDigest :
    ∀ M ∈ [List.replicate 66 0x61#8, []],
      M.length ≤ 2 ^ 61 - 1 ∧ idle.e.busy = false ∧
      (hosted (hashProgram 0x100 M) idle).queue =
        hashProgram (hosted (hashProgram 0x100 M) idle).base M := by decide +kernel

theorem witness_InstancesAreIndependent :
    0 ≠ 1 ∧ ∃ is', Instances.stepOne 0 (Instances.reset [0x100, 0x200]) = some is' :=
  ⟨by decide, Instances.reset [0x100, 0x200], rfl⟩

theorem witness_AddressReachesOneInstance :
    Instances.placed (Instances.reset [0x100, 0x200]) ∧
    (Instances.reset [0x100, 0x200])[1]? = some (State.resetAt 0x200) ∧
    inWindow (State.resetAt 0x200).base 0x200 = true ∧
    inWindow (State.resetAt 0x200).base 0x2ff = true := by decide

end Sys2Proof.Tests
end

section
/-! Words and bytes: what be32, bytes32, be64bytes, ROTR and SHR do (spec/00_scope.md rules R11, R12), and the
two obligations about them. -/

namespace Sys2Proof.Machine

/-! Rotation and shift (00_scope.md R11) -/

theorem rotr_getLsbD (x : Word) {n i : Nat} (hn : n < 32) (hi : i < 32) :
    (rotr x n).getLsbD i = x.getLsbD ((i + n) % 32) := by
  simp only [rotr, BitVec.getLsbD_or, BitVec.getLsbD_ushiftRight, BitVec.getLsbD_shiftLeft]
  by_cases h : i + n < 32
  · have hleft : i < 32 - n := by omega
    simp [hleft, Nat.mod_eq_of_lt h, Nat.add_comm n i]
  · have hright : x.getLsbD (n + i) = false := BitVec.getLsbD_of_ge x _ (by omega)
    have hleft : ¬ i < 32 - n := by omega
    have hwrap : (i + n) % 32 = i - (32 - n) := by omega
    simp [hright, hleft, hi, hwrap]

theorem shr_getLsbD (x : Word) (n i : Nat) :
    (shr x n).getLsbD i = (decide (i + n < 32) && x.getLsbD (i + n)) := by
  rw [shr, BitVec.getLsbD_ushiftRight, Nat.add_comm n i]
  by_cases h : i + n < 32
  · simp [h]
  · simp [h, BitVec.getLsbD_of_ge x (i + n) (by omega)]

/-! Four bytes and a word (00_scope.md R12) -/

theorem bytes32_getD (x : Word) {j : Nat} (hj : j < 4) :
    (bytes32 x).getD j 0 = x.extractLsb' (24 - 8 * j) 8 := by
  match j, hj with
  | 0, _ | 1, _ | 2, _ | 3, _ => rfl

theorem bytes32_getD_toNat (x : Word) {j : Nat} (hj : j < 4) :
    ((bytes32 x).getD j 0).toNat = x.toNat / 2 ^ (24 - 8 * j) % 256 := by
  rw [bytes32_getD x hj, byteAt_toNat]

/-- The sum of `be32_toNat` has each byte as one digit in base 256. -/
@[simp] theorem bytes32_be32 (b0 b1 b2 b3 : Byte) : bytes32 (be32 b0 b1 b2 b3) = [b0, b1, b2, b3] := by
  have h0 := b0.isLt
  have h1 := b1.isLt
  have h2 := b2.isLt
  have h3 := b3.isLt
  simp only [bytes32, List.cons.injEq, and_true]
  refine ⟨?_, ?_, ?_, ?_⟩ <;>
    · apply BitVec.eq_of_toNat_eq
      rw [byteAt_toNat, be32_toNat]
      omega

@[simp] theorem be32_bytes (x : Word) :
    be32 (x.extractLsb' 24 8) (x.extractLsb' 16 8) (x.extractLsb' 8 8) (x.extractLsb' 0 8) = x := by
  have hx := x.isLt
  apply BitVec.eq_of_toNat_eq
  simp only [be32_toNat, byteAt_toNat]
  omega

/-! Eight bytes and a number (00_scope.md R12) -/

/-- Horner's step: a number without its lower k + 8 bits, followed by the byte at bit k, is the number
without its lower k bits. -/
theorem shiftRight_mul_add_byte (v k : Nat) :
    (v >>> (k + 8)) * 256 + (BitVec.ofNat 8 (v >>> k)).toNat = v >>> k := by
  rw [Nat.shiftRight_add, Nat.shiftRight_eq_div_pow (v >>> k) 8, BitVec.toNat_ofNat]
  exact Nat.div_add_mod' (v >>> k) 256

/-- Begun with the bits of v above bit 63, the fold by which the bytes of v are read ends at v. -/
theorem be64bytes_foldl (v : Nat) :
    (be64bytes v).foldl (fun n b => n * 256 + b.toNat) (v >>> 64) = v := by
  simp only [be64bytes, List.map_cons, List.map_nil, List.foldl_cons, List.foldl_nil]
  rw [shiftRight_mul_add_byte v 56, shiftRight_mul_add_byte v 48, shiftRight_mul_add_byte v 40,
    shiftRight_mul_add_byte v 32, shiftRight_mul_add_byte v 24, shiftRight_mul_add_byte v 16,
    shiftRight_mul_add_byte v 8, shiftRight_mul_add_byte v 0, Nat.shiftRight_zero]

theorem be64bytes_value {v : Nat} (hv : v < 2 ^ 64) :
    (be64bytes v).foldl (fun n b => n * 256 + b.toNat) 0 = v := by
  have hzero : v >>> 64 = 0 := by rw [Nat.shiftRight_eq_div_pow, Nat.div_eq_of_lt hv]
  simpa only [hzero] using be64bytes_foldl v

/-! The obligations -/

/-- Settles O43: be32 and bytes32 by their digits in base 256, be64bytes by Horner's rule from 0, as no
bits stand above bit 63. -/
theorem wordsAndBytesAreBigEndian : Obligations.WordsAndBytesAreBigEndian :=
  ⟨be32_toNat, fun x _ hj => ⟨bytes32_length x, bytes32_getD_toNat x hj⟩, bytes32_be32, be32_bytes,
    fun v hv => ⟨be64bytes_length v, be64bytes_value hv⟩⟩

/-- Settles O44, by whether bit i + n is still a bit of the word. -/
theorem rotateAndShiftBits : Obligations.RotateAndShiftBits :=
  fun x n i _ hn hi => ⟨rotr_getLsbD x hn hi, shr_getLsbD x n i⟩

end Sys2Proof.Machine
end

section
/-! What the statements about the state share: the command of a word (spec/30_encoding.md), what a command answers
(spec/60_exceptions.md R238), what a step does to the engine, and which registers a read compares. -/

namespace Sys2Proof.Machine

/-! The fields of a command word as numbers (30_encoding.md R91) -/

theorem opField_eq (w : Word) : opField w = w.toNat % 16 := by
  rw [opField, BitVec.extractLsb'_toNat, Nat.shiftRight_zero]

theorem nbField_eq (w : Word) : nbField w = w.toNat / 16 % 8 := by
  rw [nbField, BitVec.extractLsb'_toNat, Nat.shiftRight_eq_div_pow]

theorem rsvdField_eq (w : Word) : rsvdField w = w.toNat / 128 := by
  have hw := w.isLt
  rw [rsvdField, BitVec.extractLsb'_toNat, Nat.shiftRight_eq_div_pow]
  omega

/-- The two fields of a command's word do not overlap (30_encoding.md R99). -/
theorem encode_eq_sum (i : Instr) : encode i = BitVec.ofNat 32 (16 * nbOperand i + opcode i) := by
  have hop : opcode i < 2 ^ 4 := by cases i <;> simp [opcode]
  rw [encode, Nat.or_comm, ← Nat.shiftLeft_add_eq_or_of_lt hop, Nat.shiftLeft_eq, Nat.mul_comm]

theorem opcode_instrOfOp {op : Nat} (nb : Nat) (h : op < 5) : opcode (instrOfOp op nb) = op := by
  match op, h with
  | 0, _ | 1, _ | 2, _ | 3, _ | 4, _ => rfl

theorem nbOperand_instrOfOp {op nb : Nat} (h : op = 2 ∨ nb = 0) :
    nbOperand (instrOfOp op nb) = nb := by
  rcases h with rfl | rfl
  · rfl
  · unfold instrOfOp; split <;> rfl

/-- A word that decodes is the word of its command (30_encoding.md R96, R99). -/
theorem encode_of_decode {w : Word} {i : Instr} (h : decode w = .ok i) : encode i = w := by
  unfold decode at h
  split at h
  · cases h
  · next hr =>
    split at h
    · cases h
    · next ho =>
      split at h
      · cases h
      · next hn =>
        cases h
        have hlt := w.isLt
        rw [rsvdField_eq] at hr
        rw [encode_eq_sum, opcode_instrOfOp _ (by omega), nbOperand_instrOfOp (by omega), opField_eq,
          nbField_eq]
        apply BitVec.eq_of_toNat_eq
        rw [BitVec.toNat_ofNat]
        omega

/-- A word that does not decode is illegal by one of the clauses of 30_encoding.md R97. -/
theorem illegalWord_of_decode {w : Word} {x : DecodeError} (h : decode w = .error x) :
    illegalWord w := by
  unfold decode at h
  rw [rsvdField_eq, opField_eq, nbField_eq] at h
  split at h
  · next hr => exact .inl hr
  · split at h
    · next ho => exact .inr (.inl ho)
    · split at h
      · next hn => exact .inr (.inr hn)
      · cases h

/-! What a command answers: its effect, or the first check that fails (60_exceptions.md R238) -/

/-- The checks of a command, in their order. -/
def commandError : Instr → Engine → Option ErrCode
  | .nop, _ => none
  | .init, e => initError e
  | .update nb, e => updateError nb e
  | .final, e => finalError e
  | .clrerr, _ => none

/-- The effect of an accepted command. -/
def State.perform : Instr → State → State
  | .nop, s => s
  | .init, s => s.startMessage
  | .update nb, s => s.append nb
  | .final, s => s.closeMessage
  | .clrerr, s => s.clearError

theorem exec_eq (i : Instr) (s : State) :
    exec i s = .next ((commandError i s.e).elim (s.perform i) s.reject) := by
  cases i with
  | nop | clrerr => rfl
  | init =>
    simp only [exec, execInit, commandError]
    cases initError s.e <;> rfl
  | update nb =>
    simp only [exec, execUpdate, commandError]
    cases updateError nb s.e <;> rfl
  | final =>
    simp only [exec, execFinal, commandError]
    cases finalError s.e <;> rfl

/-- No check fails exactly when the command is accepted. -/
theorem commandError_eq_none_iff (i : Instr) (e : Engine) :
    commandError i e = none ↔ e.accepts i := by
  cases i with
  | nop | clrerr => simp [commandError]
  | init => simp [commandError, initError]
  | update nb =>
    simp only [commandError, updateError, Engine.accepts, ← nbLegal_iff, ← lmax_eq]
    split_ifs <;> simp_all
  | final =>
    simp only [commandError, finalError, Engine.accepts]
    split_ifs <;> simp_all

/-- A check that fails gives a code that is not "no error". -/
theorem commandError_ne_none {i : Instr} {e : Engine} {c : ErrCode} (h : commandError i e = some c) :
    c ≠ .none := by
  cases i with
  | nop | clrerr => cases h
  | init =>
    simp only [commandError, initError] at h
    split_ifs at h
    cases h; decide
  | update nb =>
    simp only [commandError, updateError] at h
    split_ifs at h <;> cases h <;> decide
  | final =>
    simp only [commandError, finalError] at h
    split_ifs at h <;> cases h <;> decide

theorem exec_cases {i : Instr} {s t : State} (h : exec i s = .next t) :
    (s.e.accepts i ∧ t = s.perform i) ∨
    (¬ s.e.accepts i ∧ ∃ c, c ≠ .none ∧ t = s.reject c) := by
  rw [exec_eq] at h
  cases h
  rw [← commandError_eq_none_iff]
  cases hc : commandError i s.e with
  | none => exact .inl ⟨rfl, rfl⟩
  | some c => exact .inr ⟨by simp, c, commandError_ne_none hc, rfl⟩

/-- Everything a step that answers a next state does to BASE and the engine (20_memory.md R74): the
completion, nothing, an accepted command, a rejected word, a write to DATA, or a reset. -/
theorem step_effect {s t : State} (h : step s = .next t) :
    (s.e.busy = true ∧ t = s.complete) ∨
    (t.base = s.base ∧ t.e = s.e) ∨
    ∃ rest,
      (∃ i, s.hostTurn (.write s.base 4 (encode i)) rest ∧ s.e.accepts i ∧
        t = (s.taken rest).perform i) ∨
      (∃ w c, s.hostTurn (.write s.base 4 w) rest ∧
        (illegalWord w ∨ ∃ i, decode w = .ok i ∧ ¬ s.e.accepts i) ∧ c ≠ .none ∧
        t = (s.taken rest).reject c) ∨
      (∃ v, s.hostTurn (.write (s.base + 8) 4 v) rest ∧ t = (s.taken rest).writeData v) ∨
      (s.hostTurn .reset rest ∧ t = (s.taken rest).platformReset) := by
  rcases next_cases h with hc | rfl | ⟨ev, rest, hev, hm⟩
  · exact .inl hc
  · exact .inr (.inl ⟨rfl, rfl⟩)
  · rcases hostMove_cases hm with ⟨v, rfl⟩ | ⟨v, rfl⟩ | rfl | ⟨w, i, rfl, hd, hx⟩ |
      ⟨w, rfl, ⟨x, hd⟩, rfl⟩ | ⟨v, rfl, rfl⟩ | ⟨rfl, rfl⟩
    · exact .inr (.inl ⟨rfl, rfl⟩)
    · exact .inr (.inl ⟨rfl, rfl⟩)
    · exact .inr (.inl ⟨rfl, rfl⟩)
    · refine .inr (.inr ⟨rest, ?_⟩)
      rcases exec_cases hx with ⟨ha, rfl⟩ | ⟨ha, c, hc, rfl⟩
      · exact .inl ⟨i, by rw [encode_of_decode hd]; exact hev, ha, rfl⟩
      · exact .inr (.inl ⟨w, c, hev, .inr ⟨i, hd, ha⟩, hc, rfl⟩)
    · exact .inr (.inr ⟨rest, .inr (.inl
        ⟨w, .illegal, hev, .inl (illegalWord_of_decode hd), by decide, rfl⟩)⟩)
    · exact .inr (.inr ⟨rest, .inr (.inr (.inl ⟨v, hev, rfl⟩))⟩)
    · exact .inr (.inr ⟨rest, .inr (.inr (.inr ⟨hev, rfl⟩))⟩)

/-! What the effects are, as records -/

@[simp] theorem State.closeMessage_base (s : State) : s.closeMessage.base = s.base := rfl
@[simp] theorem State.closeMessage_e (s : State) :
    s.closeMessage.e = { s.e with
      buf := [], phase := .done, pend := blocks (tail s.e.buf s.e.len), busy := true,
      rounds := freeRounds s.base (s.draws + 1) } := rfl

/-- Compressing a block is compress on H; the rounds pass through the schedule of the block and end at
t = 63 (42_compressor.md R179, R180, 10_state.md R24). -/
theorem Engine.compressBlock_eq (e : Engine) (B : Block) :
    e.compressBlock B = { e with
      h := compress e.h B
      rounds := {
        w := schedule B
        vars := (List.range 64).foldl (roundAt (schedule B)) (loadVars e.h)
        t := 63 } } := by
  simp only [Engine.compressBlock, compress]
  rw [advance_iterate e.h B 64 (Nat.le_refl 64)]
  rfl

/-- The pending blocks one after the other fold into H and touch only H and the rounds. -/
theorem foldl_compressBlock (bs : List Block) (e : Engine) :
    bs.foldl Engine.compressBlock e =
      { e with h := fold e.h bs, rounds := (bs.foldl Engine.compressBlock e).rounds } := by
  induction bs generalizing e with
  | nil => rfl
  | cons B bs ih =>
    rw [List.foldl_cons, ih, Engine.compressBlock_eq, fold_cons]

/-- engine_complete as one record update (42_compressor.md R185). -/
theorem State.complete_e (s : State) :
    s.complete.e = { s.e with
      h := fold s.e.h s.e.pend, pend := [], busy := false, rounds := freeRounds s.base s.draws } := by
  simp only [State.complete, State.loseRounds_e]
  rw [foldl_compressBlock]

/-! Which fields a read of a register compares (10_state.md section 4) -/

theorem sameRead_of_fields {e e' : Engine} {off : Nat} (hstatus : off ≠ 0x04)
    (hdata : e'.data = e.data) (hlen : off = 0x10 ∨ off = 0x14 → e'.len = e.len)
    (hdigest : digestOffset off → e'.busy = e.busy ∧ e'.h = e.h) : sameRead e e' off := by
  intro d
  refine ite_congr rfl (fun _ => rfl) fun _ => ite_congr rfl (fun h => absurd h hstatus) fun _ =>
    ite_congr rfl (fun _ => hdata) fun _ => ite_congr rfl (fun hlo => ?_) fun _ =>
    ite_congr rfl (fun hhi => ?_) fun _ => ite_congr rfl (fun hd => ?_) fun _ => rfl
  · rw [Engine.lenLo, hlen (.inl hlo), Engine.lenLo]
  · rw [Engine.lenHi, hlen (.inr hhi), Engine.lenHi]
  · obtain ⟨hb, hh⟩ := hdigest hd
    rw [hb, hh]

end Sys2Proof.Machine
end

section
/-! The invariant of spec/10_state.md R35 (a) to (f) with the sizes of R20: it holds at reset and each of the engine's
effects keeps it. -/

namespace Sys2Proof.Machine

theorem Engine.reset_wf : Engine.reset.Wf := by decide

/-- W, a..h and t enter the invariant by their sizes only, so free values keep it (93 I11). -/
theorem Engine.wf_freeRounds {e : Engine} (h : e.Wf) (b d : Nat) :
    Engine.Wf { e with rounds := freeRounds b d } := by
  obtain ⟨hbusy, hphase, herr, hpend, hbuf, hlen, -⟩ := h
  exact ⟨hbusy, hphase, herr, hpend, hbuf, hlen, freeRounds_shape b d⟩

theorem State.reject_wf {s : State} (h : s.e.Wf) {c : ErrCode} (hc : c ≠ .none) :
    (s.reject c).e.Wf := by
  obtain ⟨hbusy, hphase, herr, hpend, hsizes⟩ := h
  rw [State.reject_eq]
  refine ⟨hbusy, hphase, ⟨nofun, fun hnone => ?_⟩, hpend, hsizes⟩
  cases he : s.e.err with
  | false => simp [he, hc] at hnone
  | true => simpa [he] using herr.2 (by simpa [he] using hnone)

theorem State.complete_wf {s : State} (h : s.e.Wf) (hb : s.e.busy = true) : s.complete.e.Wf := by
  obtain ⟨hbusy, ⟨habsorb, hidle, hdone⟩, herr, -, hsizes⟩ := h
  rw [State.complete_e]
  refine Engine.wf_freeRounds (e := { s.e with h := _, pend := [], busy := false })
    ⟨by simp [Engine.busyIffPending], ⟨habsorb, fun hp => ?_, hdone⟩, herr,
      by simp [Engine.pendShape], hsizes⟩ _ _
  exact absurd (hidle hp).2.2.1 (hbusy.1 hb)

theorem State.clearError_wf {s : State} (h : s.e.Wf) : s.clearError.e.Wf := by
  obtain ⟨hbusy, hphase, -, hpend, hsizes⟩ := h
  exact ⟨hbusy, hphase, by simp [Engine.errorShape], hpend, hsizes⟩

theorem State.startMessage_wf {s : State} (h : s.e.Wf) (hb : s.e.busy = false) :
    s.startMessage.e.Wf := by
  obtain ⟨hbusy, -, herr, -, -, -, hrounds⟩ := h
  have hpend : s.e.pend = [] := by simpa [Engine.busyIffPending, hb] using hbusy
  exact ⟨hbusy, ⟨fun _ => rfl, nofun, nofun⟩, herr, by simp [Engine.pendShape, hpend], by simp, by simp,
    hrounds⟩

/-- With nothing pending, setting a list of blocks to compress keeps the invariant if the list itself
has the shape of R35 (f) and is not empty. -/
theorem State.startWork_wf {s : State} (h : Engine.Wf { s.e with pend := [], busy := false })
    {bs : List Block} (hidle : s.e.phase ≠ .idle) (hne : bs ≠ [])
    (hbs : Engine.pendShape { s.e with pend := bs }) : (s.startWork bs).e.Wf := by
  obtain ⟨-, ⟨habsorb, -, hdone⟩, herr, -, hsizes⟩ := h
  exact Engine.wf_freeRounds (e := { s.e with pend := bs, busy := true })
    ⟨by simp [Engine.busyIffPending, hne], ⟨habsorb, fun hp => absurd hp hidle, hdone⟩, herr, hbs,
      hsizes⟩ _ _

theorem State.append_wf {s : State} {nb : Nat} (h : s.e.Wf) (ha : s.e.accepts (.update nb)) :
    (s.append nb).e.Wf := by
  obtain ⟨hb, hp, hnb, hlmax⟩ := ha
  obtain ⟨hbusy, ⟨habsorb, -, -⟩, herr, -, hbuf, -, hrounds⟩ := h
  have hpend : s.e.pend = [] := by simpa [Engine.busyIffPending, hb] using hbusy
  have hcount := habsorb hp
  have hS : (s.e.buf ++ dataBytes s.e.data nb).length = s.e.buf.length + nb := by
    rw [List.length_append, dataBytes_length, Nat.min_eq_left hnb.2]
  by_cases hfull : 64 ≤ (s.e.buf ++ dataBytes s.e.data nb).length
  · rw [State.append_fills s nb hfull]
    refine State.startWork_wf
      (s := { s with e := { s.e with
        len := s.e.len + nb, buf := (s.e.buf ++ dataBytes s.e.data nb).drop 64 } })
      (bs := [(s.e.buf ++ dataBytes s.e.data nb).take 64])
      ⟨by simp [Engine.busyIffPending], ⟨fun _ => ?_, by simp [hp], by simp [hp]⟩, herr,
        by simp [Engine.pendShape], ?_, by simpa [lmax_eq] using hlmax, hrounds⟩
      (by simp [hp]) (by simp) ⟨by simp, by simp, ?_⟩
    · show ((s.e.buf ++ dataBytes s.e.data nb).drop 64).length = (s.e.len + nb) % 64
      rw [List.length_drop]; omega
    · show ((s.e.buf ++ dataBytes s.e.data nb).drop 64).length ≤ 63
      rw [List.length_drop]; omega
    · intro B hB
      rw [List.mem_singleton.1 hB, List.length_take]; omega
  · rw [State.append_within s nb (by omega)]
    refine ⟨hbusy, ⟨fun _ => ?_, by simp [hp], by simp [hp]⟩, herr,
      by simp [Engine.pendShape, hpend], ?_, by simpa [lmax_eq] using hlmax, hrounds⟩
    · show (s.e.buf ++ dataBytes s.e.data nb).length = (s.e.len + nb) % 64
      omega
    · show (s.e.buf ++ dataBytes s.e.data nb).length ≤ 63
      omega

/-- FINAL pads with one block, or with two where BUF has 56 bytes or more (40_block_framer.md R136). -/
theorem tailBlocks_length {buf : List Byte} (len : Nat) (h : buf.length ≤ 63) :
    (blocks (tail buf len)).length = if buf.length < 56 then 1 else 2 := by
  rw [blocks_length, tail_length, padZeros]
  split <;> omega

theorem State.closeMessage_wf {s : State} (h : s.e.Wf) (ha : s.e.accepts .final) :
    s.closeMessage.e.Wf := by
  obtain ⟨hb, hp⟩ := ha
  obtain ⟨-, ⟨habsorb, -, -⟩, herr, -, hbuf, hlen, hrounds⟩ := h
  have hcount := habsorb hp
  have htail := tailBlocks_length s.e.len hbuf
  refine State.startWork_wf (s := { s with e := { s.e with buf := [], phase := .done } })
    (bs := blocks (tail s.e.buf s.e.len))
    ⟨by simp [Engine.busyIffPending], ⟨nofun, nofun, fun _ => rfl⟩, herr, by simp [Engine.pendShape], by simp, hlen,
      hrounds⟩ (by simp) (fun hnil => ?_) ⟨?_, fun h2 => ⟨rfl, ?_⟩, blocks_size _⟩
  · rw [hnil] at htail
    split at htail <;> simp at htail
  · show (blocks (tail s.e.buf s.e.len)).length ≤ 2
    rw [htail]; split <;> omega
  · show 56 ≤ s.e.len % 64
    have h2' : (blocks (tail s.e.buf s.e.len)).length = 2 := h2
    rw [htail] at h2'
    split at h2' <;> omega

/-- Every accepted command keeps the invariant. -/
theorem State.perform_wf {i : Instr} {s : State} (h : s.e.Wf) (ha : s.e.accepts i) :
    (s.perform i).e.Wf := by
  cases i with
  | nop => exact h
  | init => exact State.startMessage_wf h ha
  | update nb => exact State.append_wf h ha
  | final => exact State.closeMessage_wf h ha
  | clrerr => exact State.clearError_wf h

@[simp] theorem State.perform_base (i : Instr) (s : State) : (s.perform i).base = s.base := by
  cases i with
  | update nb => exact (State.append_frame s nb).1
  | nop | init | final | clrerr => rfl

/-- Settles O38: the reset engine is the same at every BASE. -/
theorem resetIsWellFormed : Obligations.ResetIsWellFormed :=
  fun _ hb => ⟨hb, Engine.reset_wf⟩

/-- Settles O39, by the effects a step can have. -/
theorem everyStepKeepsWellFormed : Obligations.EveryStepKeepsWellFormed := by
  intro s t ⟨hbase, hw⟩ h
  rcases step_effect h with ⟨hb, rfl⟩ | ⟨hb, he⟩ | ⟨rest, ⟨i, -, ha, rfl⟩ | ⟨w, c, -, -, hc, rfl⟩ |
    ⟨v, -, rfl⟩ | ⟨-, rfl⟩⟩
  · exact ⟨hbase, State.complete_wf hw hb⟩
  · exact ⟨hb ▸ hbase, he ▸ hw⟩
  · exact ⟨by simpa using hbase, State.perform_wf (s := s.taken rest) hw ha⟩
  · exact ⟨hbase, State.reject_wf (s := s.taken rest) hw hc⟩
  · exact ⟨hbase, hw⟩
  · exact ⟨hbase, Engine.wf_freeRounds Engine.reset_wf _ _⟩

end Sys2Proof.Machine
end

section
/-! What each command leaves unchanged (spec/40_block_framer.md R130, spec/43_digest_accumulator.md R202, R206, R207),
and which steps write H, DATA, LEN and the error record (spec/10_state.md R21, R28, R29, R33). -/

namespace Sys2Proof.Machine

/-! The frame of an accepted command, field by field -/

@[simp] theorem State.perform_queue (i : Instr) (s : State) : (s.perform i).queue = s.queue := by
  cases i with
  | update nb => exact (State.append_frame s nb).2.1
  | nop | init | final | clrerr => rfl

@[simp] theorem State.perform_returned (i : Instr) (s : State) :
    (s.perform i).returned = s.returned := by
  cases i with
  | update nb => exact (State.append_frame s nb).2.2.1
  | nop | init | final | clrerr => rfl

theorem State.perform_h {i : Instr} (hi : i ≠ .init) (s : State) : (s.perform i).e.h = s.e.h := by
  cases i with
  | init => exact absurd rfl hi
  | update nb =>
    obtain ⟨-, -, -, hh, -⟩ := State.append_frame s nb
    exact hh
  | nop | final | clrerr => rfl

theorem State.perform_record {i : Instr} (hi : i ≠ .clrerr) (s : State) :
    (s.perform i).e.err = s.e.err ∧ (s.perform i).e.errCode = s.e.errCode := by
  cases i with
  | clrerr => exact absurd rfl hi
  | update nb =>
    obtain ⟨-, -, -, -, -, herr, hcode, -⟩ := State.append_frame s nb
    exact ⟨herr, hcode⟩
  | nop | init | final => exact ⟨rfl, rfl⟩

@[simp] theorem State.perform_data (i : Instr) (s : State) : (s.perform i).e.data = s.e.data := by
  cases i with
  | update nb =>
    obtain ⟨-, -, -, -, -, -, -, hdata, -⟩ := State.append_frame s nb
    exact hdata
  | nop | init | final | clrerr => rfl

/-- An accepted command that does not set BUSY leaves W, a..h and t (notes/assumptions/8.md). -/
theorem State.perform_rounds {i : Instr} {s : State} (ha : s.e.accepts i)
    (hb : (s.perform i).e.busy = s.e.busy) : (s.perform i).e.rounds = s.e.rounds := by
  cases i with
  | update nb =>
    obtain ⟨-, -, -, -, -, -, -, -, hrounds, -⟩ := State.append_frame s nb
    exact hrounds (hb.trans ha.1)
  | final => exact absurd (hb.trans ha.1) (by simp [State.perform])
  | nop | init | clrerr => rfl

/-! A rejected command -/

/-- reject changes at most the error record (60_exceptions.md R236). -/
theorem State.reject_record (s : State) (c : ErrCode) :
    (s.reject c).e = { s.e with err := (s.reject c).e.err, errCode := (s.reject c).e.errCode } := by
  rw [State.reject_eq]

/-- Only STATUS shows the error record (10_state.md R38). -/
theorem sameRead_of_record {e e' : Engine} (h : e' = { e with err := e'.err, errCode := e'.errCode })
    {off : Nat} (hoff : off ≠ 0x04) : sameRead e e' off := by
  rw [h]
  exact sameRead_of_fields hoff rfl (fun _ => rfl) fun _ => ⟨rfl, rfl⟩

/-- Settles O17, by what an accepted command and a rejection leave. -/
theorem commandsLeaveTheirFrame : Obligations.CommandsLeaveTheirFrame := by
  intro i s t h
  rcases exec_cases h with ⟨ha, rfl⟩ | ⟨-, c, -, rfl⟩
  · exact ⟨by simp, by simp, by simp, by simp, fun hi => State.perform_h hi s,
      State.perform_rounds ha⟩
  · simp

/-- Settles O18: NOP is the identity, and CLRERR writes the error record only. -/
theorem nopAndClrerrFrame : Obligations.NopAndClrerrFrame := by
  rintro i s t (rfl | rfl) h
  · cases h
    exact ⟨fun _ _ _ => rfl, rfl, rfl, rfl, rfl, fun _ => ⟨rfl, rfl⟩⟩
  · cases h
    exact ⟨fun _ hoff => sameRead_of_record rfl hoff, rfl, rfl, rfl, rfl, nofun⟩

/-- Settles O19, by whether BUSY lets INIT through. -/
theorem initFrame : Obligations.InitFrame := by
  intro s t h
  rcases exec_cases h with ⟨ha, rfl⟩ | ⟨ha, c, -, rfl⟩
  · have hfree : s.e.busy = false := ha
    refine ⟨fun off hs hlo hhi hd => ?_, rfl, rfl, fun _ => ⟨rfl, rfl⟩, fun hb => ?_⟩
    · exact sameRead_of_fields hs rfl (fun hl => absurd hl (not_or.2 ⟨hlo, hhi⟩))
        (fun hdig => absurd hdig hd)
    · exact absurd hb (by simp [hfree])
  · exact ⟨fun off hs _ _ _ => sameRead_of_record (State.reject_record s c) hs, by simp, by simp,
      fun hb => absurd hb ha, fun _ => State.reject_record s c⟩

/-- Settles O20, by the checks of UPDATE. -/
theorem updateFrame : Obligations.UpdateFrame := by
  intro nb s t h
  rcases exec_cases h with ⟨ha, rfl⟩ | ⟨ha, c, -, rfl⟩
  · obtain ⟨-, -, -, hh, hphase, -, -, hdata, -⟩ := State.append_frame s nb
    refine ⟨fun off hs hlo hhi hd => ?_, hphase, hh,
      fun _ => State.perform_record (by simp) s, fun hna => absurd ha hna⟩
    exact sameRead_of_fields hs hdata (fun hl => absurd hl (not_or.2 ⟨hlo, hhi⟩))
      (fun hdig => ⟨hd.resolve_left (not_not.2 hdig), hh⟩)
  · exact ⟨fun off hs _ _ _ => sameRead_of_record (State.reject_record s c) hs, by simp, by simp,
      fun ha' => absurd ha' ha, fun _ => State.reject_record s c⟩

/-- Settles O21, by the checks of FINAL. -/
theorem finalFrame : Obligations.FinalFrame := by
  intro s t h
  rcases exec_cases h with ⟨ha, rfl⟩ | ⟨ha, c, -, rfl⟩
  · refine ⟨fun off hs hd => ?_, rfl, rfl, fun _ => ⟨rfl, rfl⟩, fun hna => absurd ha hna⟩
    exact sameRead_of_fields hs rfl (fun _ => rfl)
      (fun hdig => ⟨hd.resolve_left (not_not.2 hdig), rfl⟩)
  · exact ⟨fun off hs _ => sameRead_of_record (State.reject_record s c) hs, by simp, by simp,
      fun ha' => absurd ha' ha, fun _ => State.reject_record s c⟩

/-! The writers of H, DATA, LEN and the error record -/

/-- Settles O35, by the effects a step can have. -/
theorem hashStateHasThreeWriters : Obligations.HashStateHasThreeWriters := by
  intro s t h hne
  rcases step_effect h with ⟨hb, rfl⟩ | ⟨-, he⟩ | ⟨rest, ⟨i, hev, ha, rfl⟩ | ⟨w, c, -, -, -, rfl⟩ |
    ⟨v, -, rfl⟩ | ⟨hev, rfl⟩⟩
  · exact .inl ⟨hb, rfl, by rw [State.complete_e]⟩
  · exact absurd (by rw [he]) hne
  · by_cases hi : i = .init
    · subst hi
      exact .inr (.inl ⟨rest, hev, ha, rfl⟩)
    · exact absurd (State.perform_h hi _) hne
  · exact absurd (by simp) hne
  · exact absurd rfl hne
  · exact .inr (.inr ⟨rest, hev, rfl⟩)

/-- Settles O36, by the effects a step can have. -/
theorem dataAndLenHaveTheirWriters : Obligations.DataAndLenHaveTheirWriters := by
  intro s t h
  rcases step_effect h with ⟨-, rfl⟩ | ⟨-, he⟩ | ⟨rest, ⟨i, hev, ha, rfl⟩ | ⟨w, c, -, -, -, rfl⟩ |
    ⟨v, hev, rfl⟩ | ⟨hev, rfl⟩⟩
  · simp [State.complete_e]
  · simp [he]
  · refine ⟨fun hne => absurd (by simp) hne, fun hne => ⟨rest, ?_⟩⟩
    cases i with
    | init => exact .inr (.inl ⟨hev, ha, rfl⟩)
    | update nb =>
      obtain ⟨-, -, -, -, -, -, -, -, -, hlen⟩ := State.append_frame (s.taken rest) nb
      exact .inl ⟨nb, hev, ha, hlen⟩
    | nop | final | clrerr => exact absurd rfl hne
  · simp
  · exact ⟨fun _ => ⟨rest, .inl ⟨v, hev, rfl⟩⟩, fun hne => absurd rfl hne⟩
  · exact ⟨fun _ => ⟨rest, .inr ⟨hev, rfl⟩⟩, fun _ => ⟨rest, .inr (.inr ⟨hev, rfl⟩)⟩⟩

/-- Settles O37, by the effects a step can have. -/
theorem errorRecordWriters : Obligations.ErrorRecordWriters := by
  intro s t h
  rcases step_effect h with ⟨-, rfl⟩ | ⟨-, he⟩ | ⟨rest, ⟨i, hev, -, rfl⟩ | ⟨w, c, hev, hw, -, rfl⟩ |
    ⟨v, -, rfl⟩ | ⟨hev, rfl⟩⟩
  · simp +contextual [State.complete_e]
  · simp +contextual [he]
  · by_cases hi : i = .clrerr
    · subst hi
      exact ⟨fun _ => .inr ⟨rfl, rfl, rest, .inl hev⟩, fun _ hset => by simp [State.perform] at hset⟩
    · obtain ⟨herr, hcode⟩ := State.perform_record hi (s.taken rest)
      simp +contextual [herr, hcode]
  · exact ⟨fun hset => .inl (by simp [hset]), fun _ _ => ⟨w, rest, hev, hw⟩⟩
  · simp +contextual
  · exact ⟨fun _ => .inr ⟨rfl, rfl, rest, .inr hev⟩, nofun⟩

end Sys2Proof.Machine
end

section
/-! The engine's round loop and the pure function compress (spec/42_compressor.md R175 to R181). -/

namespace Sys2Proof.Machine

/-- The worked example of 42_compressor.md R181. -/
theorem compress_abc : compress iv (pad [0x61#8, 0x62#8, 0x63#8]) =
    { h0 := 0xba7816bf#32, h1 := 0x8f01cfea#32, h2 := 0x414140de#32, h3 := 0x5dae2223#32
      h4 := 0xb00361a3#32, h5 := 0x96177a9c#32, h6 := 0xb410ff61#32, h7 := 0xf20015ad#32 } := by
  decide +kernel

/-- Settles O28: the loop by its invariant `advance_iterate`, what compress is by its definition, the
example by evaluation. -/
theorem roundLoopComputesCompress : Obligations.RoundLoopComputesCompress := by
  refine ⟨fun e B => ?_, fun H B v hv => ?_, compress_abc⟩
  · rw [Engine.compressBlock_eq]
    exact ⟨rfl, rfl, rfl⟩
  · rw [hv]
    rfl

end Sys2Proof.Machine
end

section
/-! The register window (spec/10_state.md section 4, spec/43_digest_accumulator.md R208): the fields of STATUS, what a
read returns, and that DATA reads back. -/

namespace Sys2Proof.Machine

/-! STATUS -/

/-- The low k bits beside what is shifted past them (10_state.md R38). -/
theorem or_shiftLeft_toNat {x y : Word} {k : Nat} (hx : x.toNat < 2 ^ k)
    (hy : y.toNat * 2 ^ k < 2 ^ 32) : (x ||| y <<< k).toNat = x.toNat + y.toNat * 2 ^ k := by
  rw [BitVec.toNat_or, BitVec.toNat_shiftLeft, Nat.shiftLeft_eq, Nat.mod_eq_of_lt hy,
    ← Nat.shiftLeft_eq, Nat.or_comm, ← Nat.shiftLeft_add_eq_or_of_lt hx, Nat.add_comm]

/-- Five fields at the places of STATUS, as the number they make (10_state.md R38). -/
theorem or_fields_toNat {b r p c n : Word} (hb : b.toNat < 2) (hr : r.toNat < 2) (hp : p.toNat < 4)
    (hc : c.toNat < 16) (hn : n.toNat < 64) :
    (b ||| r <<< 1 ||| p <<< 2 ||| c <<< 4 ||| n <<< 8).toNat =
      b.toNat + 2 * r.toNat + 4 * p.toNat + 16 * c.toNat + 256 * n.toNat := by
  have h1 : (b ||| r <<< 1).toNat = _ := or_shiftLeft_toNat (by omega) (by omega)
  have h2 : (b ||| r <<< 1 ||| p <<< 2).toNat = _ := or_shiftLeft_toNat (by omega) (by omega)
  have h4 : (b ||| r <<< 1 ||| p <<< 2 ||| c <<< 4).toNat = _ :=
    or_shiftLeft_toNat (by omega) (by omega)
  rw [or_shiftLeft_toNat (by omega) (by omega)]
  omega

theorem ofBool_setWidth_toNat (b : Bool) : ((BitVec.ofBool b).setWidth 32).toNat = b.toNat := by
  cases b <;> rfl

/-- STATUS as the number its fields make; BUFCNT has 6 bits (10_state.md R38). -/
theorem status_toNat (e : Engine) :
    e.status.toNat = e.busy.toNat + 2 * e.err.toNat + 4 * e.phase.code.toNat +
      16 * e.errCode.code.toNat + 256 * (e.buf.length % 64) := by
  have hbusy := ofBool_setWidth_toNat e.busy
  have herr := ofBool_setWidth_toNat e.err
  have hphase : (e.phase.code.setWidth 32).toNat = e.phase.code.toNat :=
    BitVec.toNat_setWidth_of_le (by decide)
  have hcode : (e.errCode.code.setWidth 32).toNat = e.errCode.code.toNat :=
    BitVec.toNat_setWidth_of_le (by decide)
  have hbuf : (e.bufCnt.setWidth 32).toNat = e.buf.length % 64 :=
    (BitVec.toNat_setWidth_of_le (by decide)).trans (BitVec.toNat_ofNat ..)
  rw [Engine.status, or_fields_toNat (hbusy ▸ e.busy.toNat_lt) (herr ▸ e.err.toNat_lt)
    (hphase ▸ e.phase.code.isLt) (hcode ▸ e.errCode.code.isLt)
    (hbuf ▸ Nat.mod_lt _ (by decide)), hbusy, herr, hphase, hcode, hbuf]

theorem phase_code_lt (p : Phase) : p.code.toNat < 3 := by cases p <;> decide

theorem errCode_code_le (c : ErrCode) : c.code.toNat ≤ 5 := by cases c <;> decide

/-- Settles O24, by the sum of `status_toNat`. -/
theorem statusWordFields : Obligations.StatusWordFields := by
  intro e
  have hbusy := e.busy.toNat_lt
  have herr := e.err.toNat_lt
  have hphase := phase_code_lt e.phase
  have hcode := errCode_code_le e.errCode
  have hbuf : e.buf.length % 64 < 64 := Nat.mod_lt _ (by decide)
  rw [status_toNat]
  refine ⟨fun h => by rw [Nat.mod_eq_of_lt (by omega)], by omega, by omega, by omega⟩

/-! Reads -/

/-- The step that an admitted read makes (43_digest_accumulator.md R208). -/
theorem step_read {s : State} {rest : List HostEvent} {off : Nat} (hoff : off < 256)
    (h4 : off % 4 = 0) (h : s.hostTurn (.read (s.base + off) 4) rest) :
    step s = .next
      ((s.taken rest).giveHost (s.e.regRead (Config.freeWord s.base s.draws) off)) := by
  rw [step_of_hostTurn h]
  exact busRead_admitted (s.taken rest) off hoff h4

/-- The step that a write to DATA makes (43_digest_accumulator.md R209). -/
theorem step_writeData {s : State} {rest : List HostEvent} {v : Word}
    (h : s.hostTurn (.write (s.base + 8) 4 v) rest) :
    step s = .next ((s.taken rest).writeData v) := by
  rw [step_of_hostTurn h]
  exact busWrite_admitted (s.taken rest) 8 v (by decide) rfl

theorem regRead_reserved {d : Word} {e : Engine} {off : Nat}
    (h : off = 0x0c ∨ off = 0x18 ∨ off = 0x1c ∨ 0x40 ≤ off) : e.regRead d off = 0 := by
  rw [Engine.regRead, if_neg (by omega), if_neg (by omega), if_neg (by omega), if_neg (by omega),
    if_neg (by omega), if_neg (by omega)]

/-- Settles O22, by RegRead at each offset. -/
theorem readsReturnTheRegisters : Obligations.ReadsReturnTheRegisters := by
  intro s rest off hoff h4 h
  refine ⟨_, _, step_read hoff h4 h, rfl, rfl, rfl, rfl, ?_, ?_, ?_, ?_, ?_, fun hb => ?_,
    regRead_reserved⟩
  · rintro rfl; rfl
  · rintro rfl; rfl
  · rintro rfl; rfl
  · rintro rfl; exact BitVec.toNat_ofNat ..
  · rintro rfl
    exact (BitVec.toNat_ofNat ..).trans (by rw [Nat.shiftRight_eq_div_pow])
  · simp only [Engine.regRead, hb]
    refine ⟨?_, ?_, ?_, ?_, ?_, ?_, ?_, ?_⟩ <;> (rintro rfl; rfl)

/-- A DATA read in the host's turn returns DATA. -/
theorem step_readData {s : State} {rest : List HostEvent}
    (h : s.hostTurn (.read (s.base + 8) 4) rest) :
    step s = .next ((s.taken rest).giveHost s.e.data) :=
  step_read (off := 8) (by decide) rfl h

/-- A DATA read that comes next is made within two steps, as a completion that comes before it leaves
DATA (10_state.md R39, notes/assumptions/4.md). -/
theorem run_readData {s : State} {rest : List HostEvent}
    (hq : s.queue = .read (s.base + 8) 4 :: rest) :
    ∃ n t, n ≤ 2 ∧ Host.Core.run core n s = .next t ∧
      t.queue = rest ∧ t.returned = s.e.data :: s.returned ∧ t.e.data = s.e.data := by
  cases hc : completionTurn s with
  | false =>
    have hread := step_readData (s := s) (rest := rest) ⟨hq, fun hb hd => by
      simp [completionTurn, hb, hd] at hc⟩
    exact ⟨1, _, by decide, (run_next 0 hread).trans (run_zero _), rfl, rfl, rfl⟩
  | true =>
    have hread := step_readData (s := s.complete) (rest := rest) ⟨hq, by simp⟩
    have hdata : s.complete.e.data = s.e.data := by rw [State.complete_e]
    refine ⟨2, (s.complete.taken rest).giveHost s.complete.e.data, by decide, ?_, rfl, ?_, hdata⟩
    · rw [run_next 1 (step_of_completionTurn hc), run_next 0 hread, run_zero]
    · rw [hdata]; rfl

/-- Settles O25: the write, then the read within two steps. -/
theorem dataReadsBack : Obligations.DataReadsBack := by
  intro s rest v h
  obtain ⟨n, t, hn, hrun, hq, hr, hd⟩ :=
    run_readData (s := (s.taken (.read (s.base + 8) 4 :: rest)).writeData v) rfl
  exact ⟨n + 1, t, by omega, (run_next n (step_writeData h)).trans hrun, hq, hr, hd⟩

end Sys2Proof.Machine
end

section
/-! The internal round state and the free values reach nothing the host can see but what the spec leaves free
(spec/10_state.md R44): each operation commutes with exchanging them. -/

namespace Sys2Proof.Machine

/-! A state with other values in what no step may observe -/

/-- `s` with another internal round state, other returned values, another counter of free values and
another delay. -/
def State.unseen (r : Rounds) (rs : List Word) (n d : Nat) (s : State) : State :=
  { s with e := { s.e with rounds := r }, returned := rs, draws := n, delay := d }

section Commute

variable (r : Rounds) (rs : List Word) (n d : Nat) (s : State)

theorem unseen_complete :
    (s.unseen r rs n d).complete =
      s.complete.unseen (freeRounds s.base n) rs (n + roundDraws) d := by
  have he : (s.unseen r rs n d).complete.e =
      { s.complete.e with rounds := freeRounds s.base n } := by
    rw [State.complete_e, State.complete_e]; rfl
  exact congrArg (fun e => State.mk s.base e s.queue rs (n + roundDraws) d) he

theorem unseen_reject (c : ErrCode) : (s.unseen r rs n d).reject c = (s.reject c).unseen r rs n d := by
  rw [State.reject_eq, State.reject_eq]; rfl

theorem unseen_append_within (nb : Nat) (h : (s.e.buf ++ dataBytes s.e.data nb).length < 64) :
    (s.unseen r rs n d).append nb = (s.append nb).unseen r rs n d := by
  rw [State.append_within s nb h, State.append_within (s.unseen r rs n d) nb h]; rfl

theorem unseen_append_fills (nb : Nat) (h : 64 ≤ (s.e.buf ++ dataBytes s.e.data nb).length) :
    (s.unseen r rs n d).append nb =
      (s.append nb).unseen (freeRounds s.base (n + 1)) rs (n + 1 + roundDraws)
        (Config.freeNat s.base n) := by
  rw [State.append_fills s nb h, State.append_fills (s.unseen r rs n d) nb h]; rfl

end Commute

/-! Two steps that answer alike -/

/-- What the statement says of two next states, of `s` and of a state that differs from it only in what
no step may observe. -/
def Alike (s : State) (rs : List Word) (n : Nat) (t t' : State) : Prop :=
  t.e.sameVisible t'.e ∧ t'.queue = t.queue ∧ t'.base = t.base ∧
  (s.e.busy = true ∨ t.e.busy = false → t'.delay = t.delay) ∧
  (n = s.draws → t'.delay = t.delay ∧ t'.draws = t.draws) ∧
  ∃ new new', t.returned = new ++ s.returned ∧ t'.returned = new' ++ rs ∧
    new.length = new'.length ∧ new.length ≤ 1 ∧
    (n = s.draws ∨ ¬ s.freeRead → new = new')

/-- A move that returns nothing and takes `k` free values. -/
theorem alike_of_silent {s t : State} {rs : List Word} {n d k : Nat} (r : Rounds)
    (hr : t.returned = s.returned) (hk : t.draws = s.draws + k)
    (hd : s.e.busy = true ∨ t.e.busy = false → d = t.delay) (hd' : n = s.draws → d = t.delay) :
    Alike s rs n t (t.unseen r rs (n + k) d) :=
  ⟨rfl, rfl, rfl, hd, fun h => ⟨hd' h, by rw [hk, h]; rfl⟩, [], [], hr, rfl, rfl, by simp,
    fun _ => rfl⟩

/-- A move that returns nothing, takes no free value and leaves the delay. -/
theorem alike_of_still {s t : State} {rs : List Word} {n : Nat} (r : Rounds)
    (hr : t.returned = s.returned) (hk : t.draws = s.draws) :
    Alike s rs n t (t.unseen r rs n t.delay) :=
  alike_of_silent (k := 0) r hr hk (fun _ => rfl) fun _ => rfl

/-- A move that returns one word and takes one free value. -/
theorem alike_of_word {s t : State} {rs : List Word} {n : Nat} (r : Rounds) {v v' : Word}
    (hr : t.returned = v :: s.returned) (hk : t.draws = s.draws + 1)
    (hv : n = s.draws ∨ ¬ s.freeRead → v = v') :
    Alike s rs n t (t.unseen r (v' :: rs) (n + 1) t.delay) :=
  ⟨rfl, rfl, rfl, fun _ => rfl, fun h => ⟨rfl, by rw [hk, h]; rfl⟩, [v], [v'], hr, rfl, rfl,
    by simp, fun h => by rw [hv h]⟩

/-- Two results of the same kind, alike where they are next states. -/
def AlikeResults (s : State) (rs : List Word) (n : Nat) (o o' : Result) : Prop :=
  (∃ t t', o = .next t ∧ o' = .next t' ∧ Alike s rs n t t') ∨ (∃ f, o = .fault f ∧ o' = .fault f)

theorem alikeResults_next {s t t' : State} {rs : List Word} {n : Nat} (h : Alike s rs n t t') :
    AlikeResults s rs n (.next t) (.next t') :=
  .inl ⟨t, t', rfl, rfl, h⟩

theorem alikeResults_fault {s : State} {rs : List Word} {n : Nat} (f : Fault) :
    AlikeResults s rs n (.fault f) (.fault f) :=
  .inr ⟨f, rfl, rfl⟩

/-- Two operations that make the same check. -/
theorem alikeResults_ite {s : State} {rs : List Word} {n : Nat} {p : Prop} [Decidable p]
    {a a' b b' : Result} (h : p → AlikeResults s rs n a a') (h' : ¬ p → AlikeResults s rs n b b') :
    AlikeResults s rs n (if p then a else b) (if p then a' else b') := by
  by_cases hp : p
  · rw [if_pos hp, if_pos hp]; exact h hp
  · rw [if_neg hp, if_neg hp]; exact h' hp

/-- Only a DIGEST read while BUSY = 1 returns the free word (10_state.md R41). -/
theorem regRead_draw {e : Engine} {off : Nat} (h : ¬ (e.busy = true ∧ digestOffset off))
    (d d' : Word) : e.regRead d off = e.regRead d' off := by
  by_cases hd : digestOffset off
  · have hb : e.busy = false := by simpa [hd] using h
    simp only [Engine.regRead, hb, Bool.false_eq_true, if_false]
  · simp only [Engine.regRead, if_neg hd]

section Moves

variable {s : State} {rest : List HostEvent} (r : Rounds) (rs : List Word) (n : Nat)

/-- An accepted command: only where it sets BUSY is a delay drawn. -/
theorem alike_perform {i : Instr} (ha : s.e.accepts i) :
    Alike s rs n ((s.taken rest).perform i)
      (((s.taken rest).unseen r rs n (s.delay - 1)).perform i) := by
  cases i with
  | nop | init | clrerr => exact alike_of_still r rfl rfl
  | update nb =>
    simp only [State.perform]
    rcases Nat.lt_or_ge (s.e.buf ++ dataBytes s.e.data nb).length 64 with h | h
    · rw [unseen_append_within _ _ _ _ (s.taken rest) nb h, State.append_within (s.taken rest) nb h]
      exact alike_of_still r rfl rfl
    · rw [unseen_append_fills _ _ _ _ (s.taken rest) nb h, State.append_fills (s.taken rest) nb h]
      refine alike_of_silent (k := 1 + roundDraws) _ rfl rfl (fun hb => ?_) fun hn => by rw [hn]; rfl
      simp [ha.1] at hb
  | final =>
    refine alike_of_silent (t := (s.taken rest).closeMessage) (k := 1 + roundDraws)
      (freeRounds s.base (n + 1)) rfl rfl (fun hb => ?_) fun hn => by rw [hn]; rfl
    simp [ha.1] at hb

theorem alike_exec (i : Instr) :
    AlikeResults s rs n (exec i (s.taken rest))
      (exec i ((s.taken rest).unseen r rs n (s.delay - 1))) := by
  have herr : commandError i ((s.taken rest).unseen r rs n (s.delay - 1)).e =
      commandError i (s.taken rest).e := by cases i <;> rfl
  rw [exec_eq, exec_eq, herr]
  apply alikeResults_next
  cases hc : commandError i (s.taken rest).e with
  | none => exact alike_perform r rs n ((commandError_eq_none_iff i s.e).1 hc)
  | some c =>
    show Alike s rs n _ (State.reject c _)
    rw [unseen_reject]
    exact alike_of_still r rfl rfl

/-- Issuing a word: what it decodes to does not depend on the state. -/
theorem alike_issue (w : Word) :
    AlikeResults s rs n (issue w (s.taken rest))
      (issue w ((s.taken rest).unseen r rs n (s.delay - 1))) := by
  unfold issue
  cases decode w with
  | ok i => exact alike_exec r rs n i
  | error x =>
    rw [unseen_reject]
    exact alikeResults_next (alike_of_still r rfl rfl)

/-- A move that leaves the machine as it is but for the event taken. -/
theorem alike_stay : AlikeResults s rs n (.next (s.taken rest))
    (.next ((s.taken rest).unseen r rs n (s.delay - 1))) :=
  alikeResults_next (alike_of_still r rfl rfl)

theorem alike_write (addr size : Nat) (v : Word) :
    AlikeResults s rs n (busWrite addr size v (s.taken rest))
      (busWrite addr size v ((s.taken rest).unseen r rs n (s.delay - 1))) := by
  unfold busWrite regWrite
  refine alikeResults_ite (fun _ => alike_stay r rs n) fun _ =>
    alikeResults_ite (fun _ => alikeResults_fault _) fun _ =>
    alikeResults_ite (fun _ => alikeResults_fault _) fun _ =>
    alikeResults_ite (fun _ => alike_issue r rs n v) fun _ =>
    alikeResults_ite (fun _ => alikeResults_next ?_) fun _ => alike_stay r rs n
  exact alike_of_still r rfl rfl

/-- A read returns the same word unless it is one the spec leaves free (10_state.md R41, 20_memory.md
R61). -/
theorem alike_read {addr size : Nat} (hq : s.queue = .read addr size :: rest) :
    AlikeResults s rs n (busRead addr size (s.taken rest))
      (busRead addr size ((s.taken rest).unseen r rs n (s.delay - 1))) := by
  unfold busRead
  refine alikeResults_ite (fun hout => alikeResults_next (alike_of_word r rfl rfl ?_)) fun _ =>
    alikeResults_ite (fun _ => alikeResults_fault _) fun _ =>
    alikeResults_ite (fun _ => alikeResults_fault _) fun _ =>
    alikeResults_next (alike_of_word r rfl rfl ?_)
  · rintro (rfl | hfree)
    · rfl
    · exact absurd ⟨addr, size, rest, hq, .inl hout⟩ hfree
  · rintro (rfl | hfree)
    · rfl
    · exact regRead_draw (fun hd => hfree ⟨addr, size, rest, hq, .inr hd⟩) _ _

theorem alike_poll :
    AlikeResults s rs n (pollOnce (s.taken rest))
      (pollOnce ((s.taken rest).unseen r rs n (s.delay - 1))) := by
  unfold pollOnce
  exact alikeResults_ite
    (fun _ => alikeResults_next (alike_of_word r rfl rfl fun _ => rfl))
    (fun _ => alikeResults_next (alike_of_word r rfl rfl fun _ => rfl))

theorem alike_hostMove {ev : HostEvent} (hq : s.queue = ev :: rest) :
    AlikeResults s rs n (hostMove ev (s.taken rest))
      (hostMove ev ((s.taken rest).unseen r rs n (s.delay - 1))) := by
  cases ev with
  | read addr size => exact alike_read r rs n hq
  | write addr size v => exact alike_write r rs n addr size v
  | poll => exact alike_poll r rs n
  | reset =>
    exact alikeResults_next (alike_of_silent (t := (s.taken rest).platformReset) (k := roundDraws)
      (freeRounds s.base n) rfl rfl (fun _ => rfl) fun _ => rfl)

end Moves

theorem step_of_waiting {s : State} (hc : completionTurn s = false) (hq : s.queue = []) :
    step s = .next s := by
  unfold step advance
  rw [hc, hq]
  rfl

theorem step_of_event {s : State} {ev : HostEvent} {rest : List HostEvent}
    (hc : completionTurn s = false) (hq : s.queue = ev :: rest) :
    step s = hostMove ev (s.taken rest) := by
  unfold step advance
  rw [hc, hq]
  rfl

/-- Which agent moves does not depend on what is exchanged, and its moves are alike. -/
theorem alike_step (s : State) (r : Rounds) (rs : List Word) (n : Nat) :
    AlikeResults s rs n (step s) (step (s.unseen r rs n s.delay)) := by
  rcases step_cases s with ⟨hc, hs⟩ | ⟨hc, hq, hs⟩ | ⟨ev, rest, hc, hq, hs⟩
  · rw [hs, step_of_completionTurn (s := s.unseen r rs n s.delay) hc, unseen_complete]
    exact alikeResults_next
      (alike_of_silent (k := roundDraws) _ rfl rfl (fun _ => rfl) fun _ => rfl)
  · rw [hs, step_of_waiting (s := s.unseen r rs n s.delay) hc hq]
    exact alikeResults_next (alike_of_still r rfl rfl)
  · rw [hs, step_of_event (s := s.unseen r rs n s.delay) hc hq]
    exact alike_hostMove r rs n hq

/-- Settles O42: the completion and each kind of host event give results that are alike. -/
theorem roundStateIsNeverObserved : Obligations.RoundStateIsNeverObserved := by
  intro s r rs n
  change match step s, step (s.unseen r rs n s.delay) with
    | .next t, .next t' => Alike s rs n t t'
    | .fault f, .fault f' => f = f'
    | _, _ => False
  rcases alike_step s r rs n with ⟨t, t', ht, ht', hall⟩ | ⟨f, hf, hf'⟩
  · rw [ht, ht']
    exact hall
  · rw [hf, hf']

end Sys2Proof.Machine
end

section
/-! Several instances side by side: each step is of one place of the list (spec/10_state.md R47). -/

namespace Sys2Proof.Machine

/-- When one of several takes a step, and the list it leaves. -/
theorem stepOne_eq_some_iff {i : Nat} {is is' : Instances} :
    is.stepOne i = some is' ↔ ∃ s t, is[i]? = some s ∧ step s = .next t ∧ is' = is.set i t := by
  unfold Instances.stepOne
  cases is[i]? with
  | none => simp
  | some s =>
    cases hs : step s with
    | next t => simp [hs, eq_comm]
    | fault f => simp [hs]
    | refused q => simp [hs]

/-- A step leaves the other instances. -/
theorem stepOne_getElem? {i j : Nat} {is is' : Instances} (hij : i ≠ j)
    (h : is.stepOne i = some is') : is'[j]? = is[j]? := by
  obtain ⟨s, t, -, -, rfl⟩ := stepOne_eq_some_iff.1 h
  exact List.getElem?_set_ne hij

/-- Two steps of different instances, as the two steps each from the first list. -/
theorem stepOne_bind_stepOne {i j : Nat} {is is'' : Instances} (hij : i ≠ j) :
    (is.stepOne i).bind (Instances.stepOne j) = some is'' ↔
      ∃ s t s' t', (is[i]? = some s ∧ step s = .next t) ∧ (is[j]? = some s' ∧ step s' = .next t') ∧
        is'' = (is.set i t).set j t' := by
  simp only [Option.bind_eq_some_iff, stepOne_eq_some_iff]
  constructor
  · rintro ⟨_, ⟨s, t, hi, hs, rfl⟩, s', t', hj, hs', rfl⟩
    rw [List.getElem?_set_ne hij] at hj
    exact ⟨s, t, s', t', ⟨hi, hs⟩, ⟨hj, hs'⟩, rfl⟩
  · rintro ⟨s, t, s', t', ⟨hi, hs⟩, ⟨hj, hs'⟩, rfl⟩
    exact ⟨_, ⟨s, t, hi, hs, rfl⟩, s', t', by rw [List.getElem?_set_ne hij]; exact hj, hs', rfl⟩

/-- Settles O58: each step reads and writes its own place of the list. -/
theorem instancesAreIndependent : Obligations.InstancesAreIndependent := by
  intro is i j hij
  refine ⟨fun is' h => stepOne_getElem? hij h, Option.ext fun is'' => ?_⟩
  rw [stepOne_bind_stepOne hij, stepOne_bind_stepOne hij.symm]
  constructor
  · rintro ⟨s, t, s', t', hi, hj, rfl⟩
    exact ⟨s', t', s, t, hj, hi, List.set_comm _ _ hij⟩
  · rintro ⟨s', t', s, t, hj, hi, rfl⟩
    exact ⟨s, t, s', t', hi, hj, List.set_comm _ _ hij.symm⟩

end Sys2Proof.Machine
end

section
/-! The host's accesses that no register answers (spec/20_memory.md R61, R62): in the window with another size or
offset than the admitted ones, and outside it; and that the windows of several instances do not overlap. -/

namespace Sys2Proof.Machine

theorem inWindow_eq_false_iff (b a : Nat) : inWindow b a = false ↔ a < b ∨ b + 0xff < a := by
  rw [← Bool.not_eq_true, inWindow_iff]
  omega

section Accesses

variable {s : State} {rest : List HostEvent} {addr size : Nat} {v : Word}

/-- The size is looked at before the offset (notes/assumptions/9.md). -/
theorem step_wrongSize (hw : inWindow s.base addr = true) (hn : size ≠ 4)
    (h : s.hostTurn (.read addr size) rest ∨ s.hostTurn (.write addr size v) rest) :
    step s = .fault (.wrongSize size) := by
  rcases h with h | h
  · rw [step_of_hostTurn h, hostMove, busRead, State.taken_base, if_neg (by simp [hw]), if_pos hn]
  · rw [step_of_hostTurn h, hostMove, busWrite, State.taken_base, if_neg (by simp [hw]), if_pos hn]

theorem step_misaligned (hw : inWindow s.base addr = true) (ha : (addr - s.base) % 4 ≠ 0)
    (h : s.hostTurn (.read addr 4) rest ∨ s.hostTurn (.write addr 4 v) rest) :
    step s = .fault (.misaligned (addr - s.base)) := by
  rcases h with h | h
  · rw [step_of_hostTurn h, hostMove, busRead, State.taken_base, if_neg (by simp [hw]),
      if_neg (by simp), if_pos ha]
  · rw [step_of_hostTurn h, hostMove, busWrite, State.taken_base, if_neg (by simp [hw]),
      if_neg (by simp), if_pos ha]

theorem step_read_outside (hw : inWindow s.base addr = false)
    (h : s.hostTurn (.read addr size) rest) :
    step s = .next ((s.taken rest).giveHost (Config.freeWord s.base s.draws)) := by
  rw [step_of_hostTurn h]
  exact if_pos hw

theorem step_write_outside (hw : inWindow s.base addr = false)
    (h : s.hostTurn (.write addr size v) rest) : step s = .next (s.taken rest) := by
  rw [step_of_hostTurn h]
  exact if_pos hw

end Accesses

/-- Settles O26: the bus looks at the size, then at the offset. -/
theorem unadmittedAccessesAreStuck : Obligations.UnadmittedAccessesAreStuck := by
  intro s rest addr size v hlo hhi h
  have hw : inWindow s.base addr = true := (inWindow_iff _ _).2 ⟨hlo, hhi⟩
  refine ⟨fun hn => step_wrongSize hw hn h, ?_⟩
  rintro rfl ha
  exact step_misaligned hw ha h

/-- Settles O27: outside the window the bus answers before the engine is reached. -/
theorem outsideTheWindowIsNotTheEngine : Obligations.OutsideTheWindowIsNotTheEngine := by
  intro s rest addr size v hout
  have hw : inWindow s.base addr = false := (inWindow_eq_false_iff _ _).2 hout
  exact ⟨step_write_outside hw, fun h => ⟨_, _, step_read_outside hw h, rfl, rfl, rfl⟩⟩

/-- A window at a multiple of 256 is known from any address in it (00_scope.md R8). -/
theorem base_eq_of_inWindow {b c a : Nat} (hb : b % Config.windowSize = 0)
    (hc : c % Config.windowSize = 0) (hba : inWindow b a = true) (hca : inWindow c a = true) :
    b = c := by
  rw [inWindow_iff] at hba hca
  rw [Config.windowSize] at hb hc
  omega

/-- Settles O59: the two windows are at one BASE, and no two instances have the same. -/
theorem addressReachesOneInstance : Obligations.AddressReachesOneInstance := by
  intro is i j s t addr ⟨hmod, hnodup⟩ hi hj hs ht
  have hbase : s.base = t.base := base_eq_of_inWindow (hmod s (List.mem_of_getElem? hi))
    (hmod t (List.mem_of_getElem? hj)) hs ht
  have hlt : i < (is.map State.base).length := by
    rw [List.length_map]
    exact (List.getElem?_eq_some_iff.1 hi).1
  refine (List.getElem?_inj hlt hnodup).1 ?_
  rw [List.getElem?_map, List.getElem?_map, hi, hj, Option.map_some, Option.map_some, hbase]

end Sys2Proof.Machine
end

section
/-! The byte order of what goes in and what comes out: UPDATE's bytes (spec/20_memory.md R65) and the digest's
(spec/20_memory.md R68). -/

namespace Sys2Proof.Machine

/-- What an UPDATE leaves to be compressed after the blocks before it (40_block_framer.md R131): BUF,
behind the block it filled where it filled one. -/
theorem State.append_bytes (s : State) {nb : Nat} (hn : nb ≤ 4) :
    (if s.e.buf.length + nb < 64 then (s.append nb).e.buf
      else (s.append nb).e.pend.flatten ++ (s.append nb).e.buf) =
      s.e.buf ++ dataBytes s.e.data nb := by
  have hlen : (s.e.buf ++ dataBytes s.e.data nb).length = s.e.buf.length + nb := by
    rw [List.length_append, dataBytes_length, Nat.min_eq_left hn]
  by_cases h : s.e.buf.length + nb < 64
  · rw [if_pos h, State.append_within s nb (by omega)]
  · rw [if_neg h, State.append_fills s nb (by omega)]
    simp only [State.startWork_e, List.flatten_singleton, List.take_append_drop]

/-- Settles O11: the bytes of `append_bytes`, and bytes32 undoes be32. -/
theorem updateAppendsBytesInOrder : Obligations.UpdateAppendsBytesInOrder := by
  refine ⟨fun s nb ha => ⟨s.append nb, execUpdate_accepted ha, ?_⟩, ?_⟩
  · obtain ⟨-, -, ⟨-, hn⟩, -⟩ := ha
    exact s.append_bytes hn
  · rintro m0 m1 m2 m3 d rfl
    exact bytes32_be32 m0 m1 m2 m3

/-- Words written big-endian one after the other: byte 4·i + j is byte j of word i. -/
theorem flatMap_bytes32_getD (ws : List Word) {i j : Nat} (hi : i < ws.length) (hj : j < 4) :
    (ws.flatMap bytes32).getD (4 * i + j) 0 = (bytes32 (ws.getD i 0)).getD j 0 := by
  induction ws generalizing i with
  | nil => cases hi
  | cons w ws ih =>
    rw [List.flatMap_cons]
    cases i with
    | zero =>
      rw [Nat.mul_zero, Nat.zero_add, List.getD_append _ _ _ _ hj, List.getD_cons_zero]
    | succ i =>
      have hskip : 4 * (i + 1) + j - (bytes32 w).length = 4 * i + j := by
        rw [bytes32_length]; omega
      rw [List.getD_append_right _ _ _ _ (by rw [bytes32_length]; omega), hskip,
        ih (Nat.lt_of_succ_lt_succ hi), List.getD_cons_succ]

theorem digest_getD (M : List Byte) {i j : Nat} (hi : i < 8) (hj : j < 4) :
    (digest M).getD (4 * i + j) 0 = (bytes32 ((digestState M).word i)).getD j 0 :=
  flatMap_bytes32_getD (digestState M).words hi hj

/-- Settles O55: eight words of four bytes, each as `bytes32_getD` gives it. -/
theorem digestBytesAreBigEndian : Obligations.DigestBytesAreBigEndian :=
  fun M _ _ hi hj =>
    ⟨rfl, digest_getD M hi hj, (digest_getD M hi hj).trans (bytes32_getD _ hj)⟩

end Sys2Proof.Machine
end

section
/-! The completion comes (spec/20_memory.md R79): while BUSY = 1 each step ends the pending work or brings its end
nearer. -/

namespace Sys2Proof.Machine

/-- A step never ends in a refusal. -/
theorem step_next_or_fault (s : State) :
    (∃ t, step s = .next t) ∨ ∃ f, step s = .fault f := by
  rcases alike_step s s.e.rounds s.returned s.draws with ⟨t, -, ht, -⟩ | ⟨f, hf, -⟩
  · exact .inl ⟨t, ht⟩
  · exact .inr ⟨f, hf⟩

theorem run_one (s : State) : Host.Core.run core 1 s = step s := by
  rcases step_next_or_fault s with ⟨t, ht⟩ | ⟨f, hf⟩
  · exact (run_next 0 ht).trans ht.symm
  · exact (run_fault 0 hf).trans hf.symm

/-- How the work that `s` has pending can have ended in `o`: folded into H, dropped by a reset, or
never, as an unadmitted access stopped the machine (20_memory.md R62, R79). -/
def State.WorkEnds (s : State) (o : Result) : Prop :=
  (∃ t, o = .next t ∧ t.e.busy = false ∧ t.e.pend = [] ∧ t.e.h = fold s.e.h s.e.pend ∧
    t.e.phase = s.e.phase ∧ t.e.len = s.e.len ∧ t.e.buf = s.e.buf) ∨
  (HostEvent.reset ∈ s.queue ∧ ∃ t, o = .next t ∧
    t.e = { Engine.reset with rounds := t.e.rounds }) ∨
  ((∃ ev ∈ s.queue, ev.unadmitted s.base) ∧ ∃ f, o = .fault f)

theorem State.workEnds_complete (s : State) : s.WorkEnds (.next s.complete) := by
  refine .inl ⟨s.complete, rfl, ?_⟩
  rw [State.complete_e]
  exact ⟨rfl, rfl, rfl, rfl, rfl, rfl⟩

/-- The end of the work is the same seen from a later state that has the same work pending, of whose
events only polls are new. -/
theorem State.WorkEnds.of_later {s t : State} {o : Result} (h : t.WorkEnds o)
    (hbase : t.base = s.base) (hq : ∀ x ∈ t.queue, x = .poll ∨ x ∈ s.queue)
    (hh : t.e.h = s.e.h) (hpend : t.e.pend = s.e.pend) (hphase : t.e.phase = s.e.phase)
    (hlen : t.e.len = s.e.len) (hbuf : t.e.buf = s.e.buf) : s.WorkEnds o := by
  rcases h with hdone | ⟨hreset, ho⟩ | ⟨⟨ev, hev, hun⟩, ho⟩
  · rw [hh, hpend, hphase, hlen, hbuf] at hdone
    exact .inl hdone
  · exact .inr (.inl ⟨(hq _ hreset).resolve_left (by decide), ho⟩)
  · rw [hbase] at hun
    have hpoll : ev ≠ .poll := by rintro rfl; exact hun
    exact .inr (.inr ⟨⟨ev, (hq _ hev).resolve_left hpoll, hun⟩, ho⟩)

/-- While BUSY = 1 a step ends the pending work, or leaves it pending with a smaller delay. -/
theorem workEnds_or_waits {s : State} (hb : s.e.busy = true) :
    s.WorkEnds (step s) ∨
    ∃ t, step s = .next t ∧ t.e.busy = true ∧ t.delay < s.delay ∧
      ∀ o, t.WorkEnds o → s.WorkEnds o := by
  rcases step_cases s with ⟨-, hs⟩ | ⟨hc, hq, -⟩ | ⟨ev, rest, hc, hq, hs⟩
  · exact .inl (hs ▸ s.workEnds_complete)
  · simp [completionTurn, hb, hq] at hc
  · have hdelay : s.delay ≠ 0 := fun h0 => by simp [completionTurn, hb, h0] at hc
    have hev : ev ∈ s.queue := hq ▸ List.mem_cons_self
    rcases step_next_or_fault s with ⟨t, ht⟩ | ⟨f, hf⟩
    · rcases hostMove_busy (s := s.taken rest) hb (hs ▸ ht) with
        ⟨htb, hh, hpend, hphase, hlen, hbuf, hd, hbase, hsub⟩ | ⟨rfl, rfl⟩
      · refine .inr ⟨t, ht, htb, ?_, fun o ho =>
          ho.of_later hbase (fun x hx => (hsub x hx).imp_right fun hr => ?_)
            hh hpend hphase hlen hbuf⟩
        · rw [hd, State.taken_delay]; omega
        · exact hq ▸ List.mem_cons_of_mem ev hr
      · exact .inl (.inr (.inl ⟨hev, _, ht, rfl⟩))
    · exact .inl (.inr (.inr ⟨⟨ev, hev, hostMove_fault (s := s.taken rest) (hs ▸ hf)⟩, f, hf⟩))

theorem workEnds_within_delay {d : Nat} {s : State} (hb : s.e.busy = true) (hd : s.delay ≤ d) :
    ∃ n, n ≤ d + 1 ∧ s.WorkEnds (Host.Core.run core n s) := by
  induction d generalizing s with
  | zero =>
    rcases workEnds_or_waits hb with h | ⟨t, -, -, hlt, -⟩
    · exact ⟨1, by omega, by rwa [run_one]⟩
    · omega
  | succ d ih =>
    rcases workEnds_or_waits hb with h | ⟨t, ht, htb, hlt, hback⟩
    · exact ⟨1, by omega, by rwa [run_one]⟩
    · obtain ⟨n, hn, hends⟩ := ih htb (by omega)
      exact ⟨n + 1, by omega, hback _ (by rwa [run_next n ht])⟩

/-- Settles O30, by induction on the delay. -/
theorem completionComes : Obligations.CompletionComes :=
  fun _ hb => workEnds_within_delay hb (Nat.le_refl _)

end Sys2Proof.Machine
end

section
/-! The command word (spec/30_encoding.md): decoding and encoding agree, the words that are illegal, and the step that
issues a word. -/

namespace Sys2Proof.Machine

/-! The fields of a command (30_encoding.md R91, R93) -/

theorem opcode_lt (i : Instr) : opcode i < 5 := by cases i <;> simp [opcode]

theorem nbOperand_lt {i : Instr} (h : i.wellFormed = true) : nbOperand i < 8 := by
  cases i with
  | update nb => exact of_decide_eq_true h
  | nop | init | final | clrerr => decide

theorem nbOperand_eq_zero {i : Instr} (h : opcode i ≠ 2) : nbOperand i = 0 := by
  cases i with
  | update nb => exact absurd rfl h
  | nop | init | final | clrerr => rfl

@[simp] theorem instrOfOp_opcode (i : Instr) : instrOfOp (opcode i) (nbOperand i) = i := by
  cases i <;> rfl

theorem wellFormed_instrOfOp (op : Nat) {nb : Nat} (h : nb < 8) :
    (instrOfOp op nb).wellFormed = true := by
  unfold instrOfOp
  split
  · rfl
  · rfl
  · exact decide_eq_true h
  · rfl
  · rfl

/-! Decoding and encoding (30_encoding.md R96, R99) -/

/-- The fields of a well-formed command's word (`Laws.Fields`), for any command. -/
theorem fields_encode {i : Instr} (h : i.wellFormed = true) :
    opField (encode i) = opcode i ∧ nbField (encode i) = nbOperand i ∧ rsvdField (encode i) = 0 := by
  cases i with
  | nop => exact Laws.Fields.nop h
  | init => exact Laws.Fields.init h
  | update nb => exact Laws.Fields.update nb h
  | final => exact Laws.Fields.final h
  | clrerr => exact Laws.Fields.clrerr h

/-- A well-formed command's word passes the three checks of the decoder. -/
theorem decode_encode {i : Instr} (h : i.wellFormed = true) : decode (encode i) = .ok i := by
  obtain ⟨hop, hnb, hrsvd⟩ := fields_encode h
  have hlt := opcode_lt i
  rw [decode, hop, hnb, hrsvd, if_neg (by simp), if_neg (by omega),
    if_neg fun hc => hc.2 (nbOperand_eq_zero hc.1), instrOfOp_opcode]

/-- What the decoder answers has the 3-bit NB of the word (30_encoding.md R91). -/
theorem wellFormed_of_decode {w : Word} {i : Instr} (h : decode w = .ok i) : i.wellFormed = true := by
  have hnb : nbField w < 8 := BitVec.isLt _
  unfold decode at h
  split_ifs at h
  cases h
  exact wellFormed_instrOfOp _ hnb

/-- Settles O4: the decoder's three checks let through the words of the well-formed commands only. -/
theorem decodeInvertsEncode : Obligations.DecodeInvertsEncode := by
  refine fun w i => ⟨fun h => ⟨wellFormed_of_decode h, encode_of_decode h⟩, ?_⟩
  rintro ⟨hw, rfl⟩
  exact decode_encode hw

/-- Settles O1: the formula by `encode_eq_sum`, whose sum fits the word. -/
theorem commandWordsAreTheTable : Obligations.CommandWordsAreTheTable := by
  refine ⟨by decide, fun i hi => ?_, by decide⟩
  have hop := opcode_lt i
  have hnb := nbOperand_lt hi
  rw [encode_eq_sum, BitVec.toNat_ofNat]
  omega

/-- Settles O2, by evaluation. -/
theorem writtenWordsDecode : Obligations.WrittenWordsDecode := by
  unfold Obligations.WrittenWordsDecode
  decide

/-! Illegal words (30_encoding.md R97) -/

theorem decode_error_iff (w : Word) : (∃ x, decode w = .error x) ↔ illegalWord w := by
  refine ⟨fun ⟨_, hx⟩ => illegalWord_of_decode hx, fun h => ?_⟩
  unfold decode
  rw [rsvdField_eq, opField_eq, nbField_eq]
  split_ifs with hrsvd hop hnb
  · exact ⟨_, rfl⟩
  · exact ⟨_, rfl⟩
  · exact ⟨_, rfl⟩
  · rcases h with h | h | h
    · exact absurd h hrsvd
    · exact absurd h hop
    · exact absurd h hnb

theorem issue_of_decode {w : Word} {i : Instr} (h : decode w = .ok i) (s : State) :
    issue w s = exec i s := by
  rw [issue, h]

theorem issue_of_illegalWord {w : Word} (h : illegalWord w) (s : State) :
    issue w s = .next (s.reject .illegal) := by
  obtain ⟨x, hx⟩ := (decode_error_iff w).2 h
  rw [issue, hx]

/-- Settles O3: the decoder checks the three clauses, and issuing rejects as `reject_eq` says. -/
theorem illegalWordsAreRejected : Obligations.IllegalWordsAreRejected :=
  fun w => ⟨decode_error_iff w, fun h s => by rw [issue_of_illegalWord h, State.reject_eq]⟩

/-! The step that issues a command (30_encoding.md R90) -/

theorem step_command {s : State} {rest : List HostEvent} {w : Word} {i : Instr}
    (h : s.hostTurn (.write s.base 4 w) rest) (hd : decode w = .ok i) :
    step s = exec i (s.taken rest) := by
  rw [step_of_hostTurn h, ← issue_of_decode hd]
  exact busWrite_cmd (s.taken rest) w

/-- Settles O5: a placed word is the next event in the host's turn, and taking it leaves the state it was
placed in. -/
theorem stepRunsTheDecodedCommand : Obligations.StepRunsTheDecodedCommand :=
  ⟨fun _ _ _ _ h hd => step_command h hd,
    fun s n w _ hd => step_command (hostTurn_withCommand (BitVec.ofNat 32 (w % 2 ^ n)) s) hd⟩

end Sys2Proof.Machine
end

section
/-! The poll loop (spec/30_encoding.md R101): with BUSY = 0 it ends at once, and while BUSY = 1 each turn counts the delay
of the completion down (notes/assumptions/4.md). -/

namespace Sys2Proof.Machine

/-- With BUSY = 0 no completion is due, so the first event in the queue comes next (20_memory.md R74). -/
theorem hostTurn_of_idle {s : State} {ev : HostEvent} {rest : List HostEvent}
    (hb : s.e.busy = false) (hq : s.queue = ev :: rest) : s.hostTurn ev rest :=
  ⟨hq, by simp [hb]⟩

theorem pollOnce_idle {s : State} (hb : s.e.busy = false) :
    pollOnce s = .next (s.giveHost s.e.status) :=
  if_pos ((status_bit0 s.e).2 hb)

theorem pollOnce_busy {s : State} (hb : s.e.busy = true) :
    pollOnce s = .next { s.giveHost s.e.status with queue := .poll :: s.queue } :=
  if_neg fun h => by simp [(status_bit0 s.e).1 h] at hb

/-- What a completed poll leaves of the engine `e`: the pending blocks are folded into H where work was
pending, and W, a..h and t may hold anything then (42_compressor.md R185, 93 I11). -/
def Engine.Settles (e e' : Engine) : Prop :=
  (e.busy = true → e' = { e with
    h := fold e.h e.pend, pend := [], busy := false, rounds := e'.rounds }) ∧
  (e.busy = false → e' = e)

theorem Engine.Settles.record {e e' : Engine} (h : e.Settles e') :
    e'.err = e.err ∧ e'.errCode = e.errCode := by
  cases hb : e.busy with
  | false => rw [h.2 hb]; exact ⟨rfl, rfl⟩
  | true => rw [h.1 hb]; exact ⟨rfl, rfl⟩

theorem State.complete_settles {s : State} (hb : s.e.busy = true) : s.e.Settles s.complete.e :=
  ⟨fun _ => by rw [State.complete_e], by simp [hb]⟩

theorem step_poll_idle {s : State} {rest : List HostEvent} (hb : s.e.busy = false)
    (hq : s.queue = .poll :: rest) : step s = .next ((s.taken rest).giveHost s.e.status) := by
  rw [step_of_hostTurn (hostTurn_of_idle hb hq)]
  exact pollOnce_idle (s := s.taken rest) hb

theorem run_poll_busy {d : Nat} {s : State} {rest : List HostEvent} (hb : s.e.busy = true)
    (hd : s.delay = d) (hq : s.queue = .poll :: rest) :
    ∃ n t, n ≤ d + 2 ∧ Host.Core.run core n s = .next t ∧ t.queue = rest ∧ t.base = s.base ∧
      s.e.Settles t.e := by
  induction d generalizing s with
  | zero =>
    have hturn : completionTurn s = true := by simp [completionTurn, hb, hd]
    have hpoll := step_poll_idle (s := s.complete) rfl hq
    exact ⟨2, _, by omega, (run_next 1 (step_of_completionTurn hturn)).trans (run_next 0 hpoll),
      rfl, rfl, State.complete_settles hb⟩
  | succ d ih =>
    have hstep := (step_of_hostTurn (s := s) ⟨hq, by simp [hd]⟩).trans
      (pollOnce_busy (s := s.taken rest) hb)
    obtain ⟨n, t, hn, hrun, ht⟩ := ih (s := { (s.taken rest).giveHost _ with queue := _ })
      hb (by simp [hd]) rfl
    exact ⟨n + 1, t, by omega, (run_next n hstep).trans hrun, ht⟩

/-- Every poll ends (70_reset_and_hazards.md R281). -/
theorem run_poll {s : State} {rest : List HostEvent} (hq : s.queue = .poll :: rest) :
    ∃ n t, n ≤ s.delay + 2 ∧ Host.Core.run core n s = .next t ∧ t.queue = rest ∧
      t.base = s.base ∧ s.e.Settles t.e := by
  cases hb : s.e.busy with
  | true => exact run_poll_busy hb rfl hq
  | false =>
    exact ⟨1, _, by omega, run_next 0 (step_poll_idle hb hq), rfl, rfl, by simp [hb], fun _ => rfl⟩

end Sys2Proof.Machine
end

section
/-! The message an idle engine has absorbed (spec/40_block_framer.md R133, spec/10_state.md R35 (g)): INIT begins the empty
one, an UPDATE and its completion append to it, and FINAL and its completion leave its digest in H. -/

namespace Sys2Proof.Machine

/-- The padding of a message ends with the tail of its partial block (40_block_framer.md R128). -/
theorem pad_append_of_blocks {past : List Byte} (buf : List Byte) (h : past.length % 64 = 0) :
    pad (past ++ buf) = past ++ tail buf (past.length + buf.length) := by
  have hzeros : padZeros (past.length + buf.length) = padZeros buf.length := by
    unfold padZeros; omega
  simp only [pad, tail, List.length_append, hzeros, List.append_assoc]

/-- UPDATE takes from DATA the bytes that `groupWord` put there (30_encoding.md R101, 20_memory.md R65). -/
theorem dataBytes_groupWord {g : List Byte} (h : g.length ≤ 4) :
    dataBytes (groupWord g) g.length = g := by
  rw [dataBytes, groupWord, bytes32_be32]
  match g, h with
  | [], _ | [_], _ | [_, _], _ | [_, _, _], _ | [_, _, _, _], _ => rfl

/-- Folding one more block is folding the message that is that block longer. -/
theorem fold_blocks_append {past B : List Byte} (hpast : past.length % 64 = 0) (hB : B.length = 64) :
    fold (fold iv (blocks past)) [B] = fold iv (blocks (past ++ B)) := by
  have hblocks : blocks B = [B] := by simpa using blocks_of_flatten [B] (by simpa using hB)
  rw [blocks_append _ _ hpast, fold_append, hblocks]

/-- In ABSORB with BUSY = 0, `M` is the message since INIT: BUF holds its partial block, and H is the state
after its whole blocks (10_state.md R35). PEND is not spoken of, as nothing reads it while BUSY = 0. -/
structure Engine.Absorbed (M : List Byte) (e : Engine) : Prop where
  busy : e.busy = false
  phase : e.phase = .absorb
  len : e.len = M.length
  buf_lt : e.buf.length < 64
  split : ∃ past : List Byte,
    past.length % 64 = 0 ∧ M = past ++ e.buf ∧ e.h = fold iv (blocks past)

theorem State.startMessage_absorbed {s : State} (hb : s.e.busy = false) :
    s.startMessage.e.Absorbed [] :=
  ⟨hb, rfl, rfl, by simp, [], rfl, rfl, rfl⟩

/-- An UPDATE and the poll after it append the group in DATA to the message, whether or not the group
fills the block (40_block_framer.md R131). -/
theorem State.append_absorbed {s : State} {M g : List Byte} {e' : Engine} (h : s.e.Absorbed M)
    (hdata : s.e.data = groupWord g) (hg : g.length ≤ 4)
    (hsettle : (s.append g.length).e.Settles e') : e'.Absorbed (M ++ g) := by
  obtain ⟨hb, hp, hlen, hlt, past, hmod, rfl, hh⟩ := h
  have hbytes : dataBytes s.e.data g.length = g := by rw [hdata, dataBytes_groupWord hg]
  have hlen' : s.e.len + g.length = (past ++ s.e.buf ++ g).length := by
    rw [hlen, List.length_append (bs := g)]
  have hS : (s.e.buf ++ g).length = s.e.buf.length + g.length := List.length_append
  by_cases hfull : 64 ≤ (s.e.buf ++ g).length
  · have htake : ((s.e.buf ++ g).take 64).length = 64 := List.length_take_of_le hfull
    rw [State.append_fills s _ (by rwa [hbytes]), hbytes] at hsettle
    rw [hsettle.1 rfl]
    refine ⟨rfl, hp, hlen', ?_, past ++ (s.e.buf ++ g).take 64, ?_, ?_, ?_⟩
    · show ((s.e.buf ++ g).drop 64).length < 64
      rw [List.length_drop]; omega
    · rw [List.length_append]; omega
    · simp [List.append_assoc]
    · show fold s.e.h [(s.e.buf ++ g).take 64] = _
      rw [hh, fold_blocks_append hmod htake]
  · rw [State.append_within s _ (by rw [hbytes]; omega), hbytes] at hsettle
    rw [hsettle.2 hb]
    exact ⟨hb, hp, hlen', by simpa using hfull, past, hmod, List.append_assoc .., hh⟩

/-- FINAL and the poll after it end the message with its digest in H: the tail's blocks are the last
blocks of the padded message (40_block_framer.md R128, R135). -/
theorem State.closeMessage_digest {s : State} {M : List Byte} {e' : Engine} (h : s.e.Absorbed M)
    (hsettle : s.closeMessage.e.Settles e') :
    e'.phase = .done ∧ e'.busy = false ∧ e'.len = M.length ∧ e'.h = digestState M := by
  obtain ⟨-, -, hlen, -, past, hmod, rfl, hh⟩ := h
  rw [hsettle.1 rfl]
  refine ⟨rfl, rfl, hlen, ?_⟩
  show fold s.e.h (blocks (tail s.e.buf s.e.len)) = digestState (past ++ s.e.buf)
  rw [digestState, pad_append_of_blocks _ hmod, blocks_append _ _ hmod, fold_append, hh, hlen,
    List.length_append]

end Sys2Proof.Machine
end

section
/-! Runs of the host's pseudo-operations and of the program that hashes a message split in any way
(spec/30_encoding.md R101, spec/43_digest_accumulator.md R211). -/

namespace Sys2Proof.Machine

/-- A run leads from `s` to `t`, where `rest` is still to come; BASE and the error record are as before. -/
structure State.Reaches (s : State) (rest : List HostEvent) (t : State) : Prop where
  run : ∃ n, Host.Core.run core n s = .next t
  queue : t.queue = rest
  base : t.base = s.base
  record : t.e.err = s.e.err ∧ t.e.errCode = s.e.errCode

section Reaches

variable {s t u : State} {q rest : List HostEvent}

theorem State.Reaches.trans (h : s.Reaches q t) (h' : t.Reaches rest u) : s.Reaches rest u := by
  obtain ⟨⟨m, hm⟩, -, hbase, herr, hcode⟩ := h
  obtain ⟨⟨n, hn⟩, hqueue, hbase', herr', hcode'⟩ := h'
  exact ⟨⟨m + n, (run_add n hm).trans hn⟩, hqueue, hbase'.trans hbase, herr'.trans herr,
    hcode'.trans hcode⟩

theorem State.reaches_of_step (h : step s = .next t) (hq : t.queue = rest) (hbase : t.base = s.base)
    (hrec : t.e.err = s.e.err ∧ t.e.errCode = s.e.errCode) : s.Reaches rest t :=
  ⟨⟨1, run_next 0 h⟩, hq, hbase, hrec⟩

/-- `cmd` with BUSY = 0, of a command that is accepted. -/
theorem State.reaches_cmd {i : Instr} (hb : s.e.busy = false) (hq : s.queue = cmd s.base i :: rest)
    (hw : i.wellFormed = true) (ha : s.e.accepts i) (hi : i ≠ .clrerr) :
    s.Reaches rest ((s.taken rest).perform i) := by
  refine State.reaches_of_step ?_ (by simp) (by simp) (State.perform_record hi _)
  rw [step_command (hostTurn_of_idle hb hq) (decode_encode hw), exec_eq, State.taken_e,
    (commandError_eq_none_iff i s.e).2 ha]
  rfl

/-- `wr DATA, v` with BUSY = 0. -/
theorem State.reaches_writeData {v : Word} (hb : s.e.busy = false)
    (hq : s.queue = wr s.base 0x08 v :: rest) : s.Reaches rest ((s.taken rest).writeData v) :=
  State.reaches_of_step (step_writeData (hostTurn_of_idle hb hq)) rfl rfl ⟨rfl, rfl⟩

theorem State.reaches_poll (hq : s.queue = .poll :: rest) :
    ∃ t, s.Reaches rest t ∧ s.e.Settles t.e := by
  obtain ⟨n, t, -, hrun, hqueue, hbase, hsettle⟩ := run_poll hq
  exact ⟨t, ⟨⟨n, hrun⟩, hqueue, hbase, hsettle.record⟩, hsettle⟩

/-- `init` begins the empty message. -/
theorem State.reaches_init (hb : s.e.busy = false) (hq : s.queue = initProgram s.base ++ rest) :
    ∃ t, s.Reaches rest t ∧ t.e.Absorbed [] := by
  obtain ⟨t, hpoll, hsettle⟩ := State.reaches_poll hq
  have htb : t.e.busy = false := by rw [hsettle.2 hb, hb]
  have hcmd : t.Reaches rest _ :=
    State.reaches_cmd (i := .init) htb (by rw [hpoll.queue, hpoll.base]; rfl) rfl htb (by decide)
  exact ⟨_, hpoll.trans hcmd, State.startMessage_absorbed (s := t.taken rest) htb⟩

/-- `upd` appends its group to the message. -/
theorem State.reaches_upd {M g : List Byte} (h : s.e.Absorbed M) (hg : 1 ≤ g.length ∧ g.length ≤ 4)
    (hmax : (M ++ g).length ≤ 2 ^ 61 - 1)
    (hq : s.queue = upd s.base g.length (groupWord g) ++ rest) :
    ∃ t, s.Reaches rest t ∧ t.e.Absorbed (M ++ g) := by
  have hdata := State.reaches_writeData h.busy hq
  have hlen : s.e.len + g.length ≤ 2 ^ 61 - 1 := by rw [h.len]; simpa using hmax
  have hcmd := State.reaches_cmd (i := .update g.length)
    (s := (s.taken (cmd s.base (.update g.length) :: .poll :: rest)).writeData (groupWord g))
    h.busy rfl (decide_eq_true (by omega)) ⟨h.busy, h.phase, hg, hlen⟩ (by simp)
  obtain ⟨t, hpoll, hsettle⟩ := State.reaches_poll hcmd.queue
  refine ⟨t, hdata.trans (hcmd.trans hpoll), State.append_absorbed ?_ rfl hg.2 hsettle⟩
  exact ⟨h.busy, h.phase, h.len, h.buf_lt, h.split⟩

/-- One `upd` per group appends the groups in order. -/
theorem State.reaches_splitUpdates {M : List Byte} {groups : List (List Byte)} (h : s.e.Absorbed M)
    (hg : ∀ g ∈ groups, 1 ≤ g.length ∧ g.length ≤ 4)
    (hmax : (M ++ groups.flatten).length ≤ 2 ^ 61 - 1)
    (hq : s.queue = splitUpdates s.base groups ++ rest) :
    ∃ t, s.Reaches rest t ∧ t.e.Absorbed (M ++ groups.flatten) := by
  induction groups generalizing s M with
  | nil =>
    rw [List.flatten_nil, List.append_nil]
    exact ⟨s, ⟨⟨0, run_zero s⟩, hq, rfl, rfl, rfl⟩, h⟩
  | cons g groups ih =>
    rw [List.flatten_cons, ← List.append_assoc] at hmax ⊢
    have hfirst : (M ++ g).length ≤ 2 ^ 61 - 1 := by
      rw [List.length_append] at hmax; omega
    obtain ⟨t, hupd, ht⟩ := State.reaches_upd h (hg g List.mem_cons_self) hfirst
      (hq.trans (List.append_assoc ..))
    obtain ⟨u, hrest, hu⟩ := ih ht (fun g' hg' => hg g' (List.mem_cons_of_mem g hg')) hmax
      (by rw [hupd.queue, hupd.base]; rfl)
    exact ⟨u, hupd.trans hrest, hu⟩

/-- `final` ends the message with its digest in H. -/
theorem State.reaches_final {M : List Byte} (h : s.e.Absorbed M)
    (hq : s.queue = finalProgram s.base ++ rest) :
    ∃ t, s.Reaches rest t ∧ t.e.phase = .done ∧ t.e.busy = false ∧ t.e.len = M.length ∧
      t.e.h = digestState M := by
  have hcmd := State.reaches_cmd (i := .final) h.busy hq rfl ⟨h.busy, h.phase⟩ (by decide)
  obtain ⟨t, hpoll, hsettle⟩ := State.reaches_poll hcmd.queue
  exact ⟨t, hcmd.trans hpoll, State.closeMessage_digest (s := s.taken _) h hsettle⟩

/-- With BUSY = 0 reads leave the engine and return its registers, the last one first. -/
theorem State.reaches_reads {offs : List Nat} (hb : s.e.busy = false)
    (hoffs : ∀ off ∈ offs, off < 256 ∧ off % 4 = 0) (hq : s.queue = offs.map (rd s.base)) :
    ∃ t, s.Reaches [] t ∧ t.e = s.e ∧
      t.returned = (offs.map (s.e.regRead 0)).reverse ++ s.returned := by
  induction offs generalizing s with
  | nil => exact ⟨s, ⟨⟨0, run_zero s⟩, hq, rfl, rfl, rfl⟩, rfl, rfl⟩
  | cons off offs ih =>
    obtain ⟨hoff, h4⟩ := hoffs off List.mem_cons_self
    have hread := step_read hoff h4 (hostTurn_of_idle hb hq)
    obtain ⟨t, ht, he, hret⟩ := ih (s := (s.taken (offs.map (rd s.base))).giveHost _) hb
      (fun o ho => hoffs o (List.mem_cons_of_mem off ho)) rfl
    refine ⟨t, (State.reaches_of_step hread rfl rfl ⟨rfl, rfl⟩).trans ht, he, ?_⟩
    rw [hret, State.giveHost_returned, regRead_draw (by simp [hb]) _ 0]
    simp

/-- The eight words that `rddig` returns are H[0..7] in order. -/
theorem State.reaches_rddig (hb : s.e.busy = false) (hq : s.queue = rddig s.base) :
    ∃ t, s.Reaches [] t ∧ t.e = s.e ∧ (t.returned.take 8).reverse = s.e.h.words := by
  have hwords : ((List.range 8).map (0x20 + 4 * ·)).map (s.e.regRead 0) = s.e.h.words := by
    simp [List.range_succ, Engine.regRead, hb, HashState.word, HashState.words]
  obtain ⟨t, ht, he, hret⟩ := State.reaches_reads (offs := (List.range 8).map (0x20 + 4 * ·)) hb
    (by decide) (by rw [hq, rddig, List.map_map]; rfl)
  exact ⟨t, ht, he, by rw [hret, hwords]; rfl⟩

/-- The host sequence of 43_digest_accumulator.md R211 from a state with BUSY = 0: it ends, reads the
digest, and leaves the message closed and the error record as it was. -/
theorem State.reaches_hashSplit {groups : List (List Byte)}
    (hg : ∀ g ∈ groups, 1 ≤ g.length ∧ g.length ≤ 4) (hmax : groups.flatten.length ≤ 2 ^ 61 - 1)
    (hb : s.e.busy = false) (hq : s.queue = hashSplit s.base groups) :
    ∃ t, s.Reaches [] t ∧ (t.returned.take 8).reverse.flatMap bytes32 = digest groups.flatten ∧
      t.e.phase = .done ∧ t.e.busy = false ∧ t.e.len = groups.flatten.length := by
  simp only [hashSplit, List.append_assoc] at hq
  obtain ⟨t₁, h₁, habs₁⟩ := State.reaches_init hb hq
  obtain ⟨t₂, h₂, habs₂⟩ := State.reaches_splitUpdates habs₁ hg hmax (by rw [h₁.queue, h₁.base])
  have h₁₂ := h₁.trans h₂
  obtain ⟨t₃, h₃, hphase, hbusy, hlen, hh⟩ := State.reaches_final habs₂ (by rw [h₁₂.queue, h₁₂.base])
  have h₁₃ := h₁₂.trans h₃
  obtain ⟨t, h₄, he, hwords⟩ := State.reaches_rddig hbusy (by rw [h₁₃.queue, h₁₃.base])
  refine ⟨t, h₁₃.trans h₄, ?_, he ▸ hphase, he ▸ hbusy, he ▸ hlen⟩
  rw [hwords, hh]
  rfl

end Reaches

/-! The groups of `hash M` -/

theorem fourByteGroups_flatten (M : List Byte) : (fourByteGroups M).flatten = M := by
  induction M using fourByteGroups.induct with
  | case1 m0 m1 m2 m3 rest ih => simp [fourByteGroups, ih]
  | case2 => rfl
  | case3 rest hfour hnil => simp [fourByteGroups]

theorem fourByteGroups_length (M : List Byte) :
    ∀ g ∈ fourByteGroups M, 1 ≤ g.length ∧ g.length ≤ 4 := by
  induction M using fourByteGroups.induct with
  | case1 m0 m1 m2 m3 rest ih => simpa [fourByteGroups] using ih
  | case2 => simp [fourByteGroups]
  | case3 rest hfour hnil =>
    match rest, hfour, hnil with
    | [], _, hnil => exact (hnil rfl).elim
    | [_], _, _ | [_, _], _, _ | [_, _, _], _, _ => simp [fourByteGroups]
    | _ :: _ :: _ :: _ :: _, hfour, _ => exact (hfour _ _ _ _ _ rfl).elim

/-- Settles O57: `hash M` is one of the splits of `reaches_hashSplit`. -/
theorem hashProgramReadsTheDigest : Obligations.HashProgramReadsTheDigest := by
  intro s M hmax hb hq
  have hflat := fourByteGroups_flatten M
  obtain ⟨t, ⟨⟨n, hrun⟩, hqueue, -, -⟩, hdigest, -⟩ :=
    State.reaches_hashSplit (fourByteGroups_length M) (by rwa [hflat]) hb hq
  exact ⟨hflat, n, t, hrun, hqueue, by rw [hdigest, hflat]⟩

end Sys2Proof.Machine
end

section
/-! The padding (spec/40_block_framer.md R120 to R128): the length of the padded message and its blocks, how the message
is recovered from it, and the tail that FINAL adds to the partial block. -/

namespace Sys2Proof.Machine

/-! The number of zeros and the length (40_block_framer.md R120, R122) -/

theorem padZeros_fills (L : Nat) : (L + 1 + padZeros L) % 64 = 56 := by
  unfold padZeros; omega

theorem padZeros_least {L z : Nat} (h : (L + 1 + z) % 64 = 56) : padZeros L ≤ z := by
  unfold padZeros; omega

theorem pad_length_mod (M : List Byte) : (pad M).length % 64 = 0 := by
  have hzeros := padZeros_fills M.length
  rw [pad_length]; omega

/-- The number of blocks is n(L) (40_block_framer.md R123). -/
theorem pad_length_div (M : List Byte) : (pad M).length / 64 = blockCount M.length := by
  have hzeros := padZeros_fills M.length
  have hlt := padZeros_lt M.length
  rw [pad_length, blockCount]; omega

/-- Settles O51: the length by the number of zeros, and a multiple of 64 bytes is its blocks in order. -/
theorem paddedLength : Obligations.PaddedLength := by
  intro M
  have hlt := padZeros_lt M.length
  have hlen := pad_length M
  have hmod := pad_length_mod M
  refine ⟨padZeros_fills _, fun z hz => padZeros_least hz, hlen, hmod, by omega, fun h9 => by omega,
    by omega, ?_, blocks_size _, blocks_flatten _ hmod⟩
  rw [blocks_length, pad_length_div]
  rfl

/-! What is recovered (40_block_framer.md R125) -/

theorem pad_drop (M : List Byte) : (pad M).drop ((pad M).length - 8) = be64bytes (8 * M.length) := by
  rw [pad]
  exact List.drop_left' (by simp only [List.length_append, be64bytes_length, Nat.add_sub_cancel])

theorem pad_take (M : List Byte) : (pad M).take M.length = M := by
  simp only [pad, List.append_assoc]
  exact List.take_left

/-- Settles O52: 8·L fits the eight bytes that end the padding. -/
theorem paddingIsRecovered : Obligations.PaddingIsRecovered := by
  intro M hM
  refine ⟨?_, pad_take M⟩
  rw [pad_drop, be64bytes_value (by omega)]

/-! The tail (40_block_framer.md R124, R128) -/

theorem padZeros_of_le {n : Nat} (h : n ≤ 55) : padZeros n = 55 - n := by
  unfold padZeros; omega

/-- Past 55 bytes the zeros fill this block and the next one up to the bit length. -/
theorem padZeros_of_ge {n : Nat} (h : 56 ≤ n) (h' : n ≤ 63) : padZeros n = 63 - n + 56 := by
  unfold padZeros; omega

/-- Settles O53: the number of zeros by the size of BUF, and the padding by `pad_append_of_blocks`. -/
theorem tailEndsThePadding : Obligations.TailEndsThePadding := by
  intro past buf len hbuf
  refine ⟨?_, ?_⟩
  · rw [tail_length]
    split
    next h => rw [padZeros_of_le h]; omega
    next h => rw [padZeros_of_ge (by omega) hbuf]; omega
  · rintro hpast rfl
    exact pad_append_of_blocks buf hpast

theorem blocks_tail_of_le {buf : List Byte} (len : Nat) (h : buf.length ≤ 55) :
    blocks (tail buf len) =
      [buf ++ [0x80#8] ++ zeros (55 - buf.length) ++ be64bytes (8 * len)] := by
  rw [tail, padZeros_of_le h]
  refine (congrArg blocks (List.flatten_singleton).symm).trans (blocks_of_flatten [_] ?_)
  simp; omega

theorem blocks_tail_of_ge {buf : List Byte} (len : Nat) (h : 56 ≤ buf.length)
    (h' : buf.length ≤ 63) :
    blocks (tail buf len) =
      [buf ++ [0x80#8] ++ zeros (63 - buf.length), zeros 56 ++ be64bytes (8 * len)] := by
  have hsplit : tail buf len =
      [buf ++ [0x80#8] ++ zeros (63 - buf.length), zeros 56 ++ be64bytes (8 * len)].flatten := by
    simp [tail, padZeros_of_ge h h', zeros, List.replicate_add]
  rw [hsplit]
  refine blocks_of_flatten _ ?_
  simp; omega

end Sys2Proof.Machine
end

section
/-! UPDATE and FINAL (spec/40_block_framer.md R131, R132, R135, R136): their checks in order, their effect when accepted,
and the corner cases. -/

namespace Sys2Proof.Machine

/-! A command whose check fails, and one that passes them all (60_exceptions.md R238) -/

theorem exec_of_commandError {i : Instr} {s : State} {c : ErrCode} (h : commandError i s.e = some c) :
    exec i s = .next (s.reject c) := by
  rw [exec_eq, h]; rfl

theorem exec_of_accepts {i : Instr} {s : State} (ha : s.e.accepts i) :
    exec i s = .next (s.perform i) := by
  rw [exec_eq, (commandError_eq_none_iff i s.e).2 ha]; rfl

section Checks

variable {e : Engine} {nb : Nat}

theorem updateError_of_busy (hb : e.busy = true) : updateError nb e = some .busy :=
  if_pos hb

theorem updateError_of_phase (hb : e.busy = false) (hp : e.phase ≠ .absorb) :
    updateError nb e = some .seq := by
  rw [updateError, if_neg (by simp [hb]), if_pos hp]

theorem updateError_of_count (hb : e.busy = false) (hp : e.phase = .absorb)
    (hn : ¬ (1 ≤ nb ∧ nb ≤ 4)) : updateError nb e = some .arg := by
  rw [updateError, if_neg (by simp [hb]), if_neg (not_not.2 hp),
    if_pos (show nbLegal nb = false from decide_eq_false hn)]

theorem updateError_of_length (hb : e.busy = false) (hp : e.phase = .absorb) (hn : 1 ≤ nb ∧ nb ≤ 4)
    (hl : 2 ^ 61 - 1 < e.len + nb) : updateError nb e = some .len := by
  rw [updateError, if_neg (by simp [hb]), if_neg (not_not.2 hp), if_neg (by simp [nbLegal, hn]),
    lmax_eq, if_pos hl]

theorem finalError_of_busy (hb : e.busy = true) : finalError e = some .busy :=
  if_pos hb

theorem finalError_of_phase (hb : e.busy = false) (hp : e.phase ≠ .absorb) :
    finalError e = some .seq := by
  rw [finalError, if_neg (by simp [hb]), if_pos hp]

theorem count_le_of_accepts (ha : e.accepts (.update nb)) : nb ≤ 4 := by
  obtain ⟨-, -, ⟨-, hn⟩, -⟩ := ha
  exact hn

end Checks

/-! The bytes UPDATE takes (20_memory.md R65) -/

theorem dataBytes_eq_map (d : Word) {nb : Nat} (h : nb ≤ 4) :
    dataBytes d nb = (List.range nb).map fun j => d.extractLsb' (24 - 8 * j) 8 := by
  match nb, h with
  | 0, _ | 1, _ | 2, _ | 3, _ | 4, _ => rfl

theorem extractLsb'_eq_of_ushiftRight_eq {x y : Word} {m k n : Nat} (hmk : m ≤ k)
    (h : x >>> m = y >>> m) : x.extractLsb' k n = y.extractLsb' k n := by
  have hx : ∀ z : Word, z.extractLsb' k n = (z >>> m).extractLsb' (k - m) n := fun z => by
    apply BitVec.eq_of_getLsbD_eq
    intro i hi
    rw [BitVec.getLsbD_extractLsb', BitVec.getLsbD_extractLsb', BitVec.getLsbD_ushiftRight]
    congr 2
    omega
  rw [hx, hx, h]

/-- The bytes of DATA beyond nb are ignored (20_memory.md R65). -/
theorem dataBytes_congr {d d' : Word} {nb : Nat} (hn : nb ≤ 4)
    (h : d >>> (8 * (4 - nb)) = d' >>> (8 * (4 - nb))) : dataBytes d nb = dataBytes d' nb := by
  rw [dataBytes_eq_map d hn, dataBytes_eq_map d' hn]
  refine List.map_congr_left fun j hj => extractLsb'_eq_of_ushiftRight_eq ?_ h
  have hlt := List.mem_range.1 hj
  omega

/-! The effect of UPDATE (40_block_framer.md R131, R132) -/

/-- An UPDATE whose bytes are what the block still lacks, and a rest. -/
theorem State.append_straddles {s : State} {nb : Nat} {filler rest : List Byte}
    (hsplit : dataBytes s.e.data nb = filler ++ rest) (hfull : (s.e.buf ++ filler).length = 64) :
    (s.append nb).e.busy = true ∧ (s.append nb).e.pend = [s.e.buf ++ filler] ∧
      (s.append nb).e.buf = rest := by
  have hS : s.e.buf ++ dataBytes s.e.data nb = (s.e.buf ++ filler) ++ rest := by
    rw [hsplit, List.append_assoc]
  rw [State.append_fills s nb (by rw [hS, List.length_append]; omega), hS, List.take_left' hfull,
    List.drop_left' hfull]
  exact ⟨rfl, rfl, rfl⟩

/-- An UPDATE completes at most one block and leaves at most 63 bytes in BUF, as it appends at most 4. -/
theorem State.append_at_most_one_block {s : State} {nb : Nat} (hbuf : s.e.buf.length ≤ 63) :
    (s.append nb).e.buf.length ≤ 63 ∧
      ((s.append nb).e.pend = s.e.pend ∨ (s.append nb).e.pend.length = 1) := by
  have hS : (s.e.buf ++ dataBytes s.e.data nb).length ≤ s.e.buf.length + 4 := by
    rw [List.length_append, dataBytes_length]; omega
  rcases Nat.lt_or_ge (s.e.buf ++ dataBytes s.e.data nb).length 64 with h | h
  · rw [State.append_within s nb h]
    exact ⟨Nat.le_of_lt_succ h, .inl rfl⟩
  · rw [State.append_fills s nb h]
    refine ⟨?_, .inr rfl⟩
    rw [State.startWork_e, List.length_drop]; omega

/-- Two words of DATA with the same bytes to take lead to the same state but for DATA. -/
theorem State.append_writeData (s : State) {nb : Nat} {d : Word}
    (h : dataBytes d nb = dataBytes s.e.data nb) :
    (s.writeData d).append nb = (s.append nb).writeData d := by
  have hS : (s.writeData d).e.buf ++ dataBytes (s.writeData d).e.data nb =
      s.e.buf ++ dataBytes s.e.data nb := congrArg (s.e.buf ++ ·) h
  rcases Nat.lt_or_ge (s.e.buf ++ dataBytes s.e.data nb).length 64 with hlt | hge
  · rw [State.append_within s nb hlt, State.append_within _ nb (hS ▸ hlt), hS]; rfl
  · rw [State.append_fills s nb hge, State.append_fills _ nb (hS ▸ hge), hS]; rfl

/-- The example of 40_block_framer.md R131. -/
theorem State.append_abc {s : State} (ha : s.e.accepts (.update 3)) (hbuf : s.e.buf = [])
    (hlen : s.e.len = 0) (herr : s.e.err = false) (hcode : s.e.errCode = .none)
    (hdata : s.e.data = 0x61626300#32) :
    (s.append 3).e.buf = [0x61#8, 0x62#8, 0x63#8] ∧ (s.append 3).e.len = 3 ∧
      (s.append 3).e.busy = false ∧ (s.append 3).e.status = 0x00000304#32 := by
  obtain ⟨hb, hp, -⟩ := ha
  have hS : s.e.buf ++ dataBytes s.e.data 3 = [0x61#8, 0x62#8, 0x63#8] := by
    rw [hbuf, hdata]; rfl
  rw [State.append_within s 3 (by rw [hS]; decide), hS]
  refine ⟨rfl, by rw [hlen], hb, BitVec.eq_of_toNat_eq ?_⟩
  rw [status_toNat, hb, herr, hp, hcode]
  rfl

/-- Settles O9: the checks in their order, and the two branches of `State.append`. -/
theorem updateFollowsItsRule : Obligations.UpdateFollowsItsRule := by
  refine ⟨fun nb hnb => ?_, fun s nb => ⟨fun hb => ?_, fun hb hp => ?_, fun hb hp hn => ?_,
    fun hb hp hn hl => ?_⟩, fun s nb S ha hS => ⟨fun hlt => ?_, fun hge => ?_⟩,
    fun s ha hbuf hlen herr hcode hdata => ?_⟩
  · interval_cases nb <;> decide
  · exact exec_of_commandError (updateError_of_busy hb)
  · exact exec_of_commandError (updateError_of_phase hb hp)
  · exact exec_of_commandError (updateError_of_count hb hp hn)
  · exact exec_of_commandError (updateError_of_length hb hp hn hl)
  · subst hS
    refine ⟨s.append nb, execUpdate_accepted ha, ?_⟩
    rw [State.append_within s nb hlt]
    exact ⟨rfl, rfl, rfl, rfl⟩
  · subst hS
    refine ⟨s.append nb, execUpdate_accepted ha, ?_⟩
    rw [State.append_fills s nb hge]
    exact ⟨rfl, rfl, rfl, rfl⟩
  · exact ⟨s.append 3, execUpdate_accepted ha, State.append_abc ha hbuf hlen herr hcode hdata⟩

/-- Settles O10: `append_straddles` for a straddling block and an exact fill, `append_writeData` for the
ignored bytes, and at LMAX − 2 the length check of 3 and of 2 bytes. -/
theorem updateCornerCases : Obligations.UpdateCornerCases := by
  refine ⟨fun s ha h62 => ?_, fun s ha h60 => ?_, fun s nb ha hbuf => ?_, fun s nb d ha hd => ?_,
    fun s nb ha => ?_, fun s hb hp hlen => ⟨?_, ?_⟩⟩
  · exact ⟨s.append 4, execUpdate_accepted ha, State.append_straddles
      (filler := [s.e.data.extractLsb' 24 8, s.e.data.extractLsb' 16 8]) rfl (by simp [h62])⟩
  · obtain ⟨hbusy, -, hrest⟩ := State.append_straddles (s := s) (nb := 4)
      (filler := dataBytes s.e.data 4) (List.append_nil _).symm (by simp [h60])
    exact ⟨s.append 4, execUpdate_accepted ha, hbusy, hrest⟩
  · exact ⟨s.append nb, execUpdate_accepted ha, State.append_at_most_one_block hbuf⟩
  · refine ⟨s.append nb, _, execUpdate_accepted ha, execUpdate_accepted (s := s.writeData d) ha, ?_⟩
    rw [State.append_writeData s (dataBytes_congr (count_le_of_accepts ha) hd)]
    rfl
  · obtain ⟨t, ht⟩ := exec_next (.update nb) s
    rcases exec_cases ht with ⟨hacc, -⟩ | ⟨-, c, -, rfl⟩
    · exact absurd hacc ha
    · exact ⟨_, ht, by simp, by simp⟩
  · exact exec_of_commandError (updateError_of_length hb hp (by decide) (by omega))
  · obtain ⟨-, -, -, -, -, herr, -, -, -, hlen'⟩ := State.append_frame s 2
    exact ⟨s.append 2, execUpdate_accepted ⟨hb, hp, by decide, by omega⟩, by omega, herr⟩

/-! The effect of FINAL (40_block_framer.md R135, R136) -/

/-- The example of 40_block_framer.md R135. -/
theorem State.closeMessage_abc {s : State} (hbuf : s.e.buf = [0x61#8, 0x62#8, 0x63#8])
    (hlen : s.e.len = 3) (herr : s.e.err = false) (hcode : s.e.errCode = .none) :
    s.closeMessage.e.pend = [[0x61#8, 0x62#8, 0x63#8, 0x80#8] ++ zeros 59 ++ [0x18#8]] ∧
      s.closeMessage.e.phase = .done ∧ s.closeMessage.e.busy = true ∧
      s.closeMessage.e.status = 0x00000009#32 := by
  refine ⟨?_, rfl, rfl, BitVec.eq_of_toNat_eq ?_⟩
  · rw [State.closeMessage_e, hbuf, hlen]
    exact blocks_tail_of_le 3 (by decide)
  · rw [status_toNat, State.closeMessage_e, herr, hcode]
    rfl

/-- Settles O12: the checks in their order, and the effect as a record. -/
theorem finalFollowsItsRule : Obligations.FinalFollowsItsRule := by
  refine ⟨rfl, fun s => ⟨fun hb => ?_, fun hb hp => ?_⟩, fun s ha => ?_,
    fun s ha hbuf hlen herr hcode => ?_⟩
  · exact exec_of_commandError (finalError_of_busy hb)
  · exact exec_of_commandError (finalError_of_phase hb hp)
  · exact ⟨s.closeMessage, execFinal_accepted ha, rfl, rfl, rfl, rfl⟩
  · exact ⟨s.closeMessage, execFinal_accepted ha, State.closeMessage_abc hbuf hlen herr hcode⟩

/-- Settles O13: the blocks of the tail, with up to 55 bytes in BUF and with more. -/
theorem finalPlacesTheTailBlocks : Obligations.FinalPlacesTheTailBlocks :=
  fun s ha hbuf => ⟨s.closeMessage, execFinal_accepted ha, blocks_tail_of_le s.e.len,
    fun h => blocks_tail_of_ge s.e.len h hbuf⟩

end Sys2Proof.Machine
end

section
/-! The message an engine holds (spec/40_block_framer.md R133, spec/10_state.md R35 (g)): which steps begin one, which
append to it, and that every other step keeps it. -/

namespace Sys2Proof.Machine

/-! What the message is, phase by phase -/

theorem Engine.holds_idle_iff {e : Engine} {M : List Byte} (hp : e.phase = .idle) :
    e.Holds M ↔ M.length = e.len := by
  simp only [Engine.Holds, hp, and_true]

theorem Engine.holds_absorb_iff {e : Engine} {M : List Byte} (hp : e.phase = .absorb) :
    e.Holds M ↔ M.length = e.len ∧ ∃ past : List Byte,
      past.length % 64 = 0 ∧ M = past ++ e.pend.flatten ++ e.buf ∧ e.h = fold iv (blocks past) := by
  simp only [Engine.Holds, hp]

theorem Engine.holds_done_iff {e : Engine} {M : List Byte} (hp : e.phase = .done) :
    e.Holds M ↔ M.length = e.len ∧ fold e.h e.pend = digestState M := by
  simp only [Engine.Holds, hp]

/-- The message is a matter of PHASE, LEN, BUF, PEND and H only. -/
theorem Engine.Holds.of_fields {e e' : Engine} {M : List Byte} (h : e.Holds M)
    (hphase : e'.phase = e.phase) (hlen : e'.len = e.len) (hbuf : e'.buf = e.buf)
    (hpend : e'.pend = e.pend) (hh : e'.h = e.h) : e'.Holds M := by
  unfold Engine.Holds
  rwa [hphase, hlen, hbuf, hpend, hh]

/-- With BUSY = 0 nothing is pending (10_state.md R35 (a)). -/
theorem Engine.pend_of_idle {e : Engine} (hw : e.Wf) (hb : e.busy = false) : e.pend = [] := by
  obtain ⟨hbusy, -⟩ := hw
  simpa [Engine.busyIffPending, hb] using hbusy

/-! The effects of a step on the message -/

/-- Folding the pending blocks is folding the message that is these blocks longer. -/
theorem fold_blocks_flatten {past : List Byte} {bs : List Block} (hpast : past.length % 64 = 0)
    (hbs : ∀ B ∈ bs, B.length = 64) :
    fold (fold iv (blocks past)) bs = fold iv (blocks (past ++ bs.flatten)) := by
  rw [blocks_append _ _ hpast, fold_append, blocks_of_flatten bs hbs]

theorem State.complete_holds {s : State} {M : List Byte} (hw : s.e.Wf) (h : s.e.Holds M) :
    s.complete.e.Holds M := by
  obtain ⟨-, -, -, ⟨-, -, hsize⟩, -⟩ := hw
  have hphase : s.complete.e.phase = s.e.phase := by rw [State.complete_e]
  cases hp : s.e.phase with
  | idle =>
    rw [Engine.holds_idle_iff (hphase.trans hp), State.complete_e]
    exact (Engine.holds_idle_iff hp).1 h
  | absorb =>
    obtain ⟨hlen, past, hmod, hM, hh⟩ := (Engine.holds_absorb_iff hp).1 h
    rw [Engine.holds_absorb_iff (hphase.trans hp), State.complete_e]
    refine ⟨hlen, past ++ s.e.pend.flatten, ?_, by simpa using hM, ?_⟩
    · have hpend := flatten_length_mod _ hsize
      rw [List.length_append]; omega
    · rw [hh, fold_blocks_flatten hmod hsize]
  | done =>
    rw [Engine.holds_done_iff (hphase.trans hp), State.complete_e]
    exact (Engine.holds_done_iff hp).1 h

theorem State.startMessage_holds {s : State} (hw : s.e.Wf) (hb : s.e.busy = false) :
    s.startMessage.e.Holds [] := by
  refine ⟨rfl, [], rfl, ?_, rfl⟩
  simp [Engine.pend_of_idle hw hb]

theorem State.platformReset_holds (s : State) : s.platformReset.e.Holds [] :=
  ⟨rfl, trivial⟩

/-- With nothing pending, an UPDATE leaves BUF and its bytes behind it in PEND and BUF. -/
theorem State.append_pend_buf {s : State} {nb : Nat} (hpend : s.e.pend = []) :
    (s.append nb).e.pend.flatten ++ (s.append nb).e.buf = s.e.buf ++ dataBytes s.e.data nb := by
  rcases Nat.lt_or_ge (s.e.buf ++ dataBytes s.e.data nb).length 64 with h | h
  · rw [State.append_within s nb h, hpend]; rfl
  · rw [State.append_fills s nb h, State.startWork_e, List.flatten_singleton,
      List.take_append_drop]

theorem State.append_holds {s : State} {M : List Byte} {nb : Nat} (hw : s.e.Wf)
    (ha : s.e.accepts (.update nb)) (h : s.e.Holds M) :
    (s.append nb).e.Holds (M ++ dataBytes s.e.data nb) := by
  have hn := count_le_of_accepts ha
  obtain ⟨hb, hp, -⟩ := ha
  obtain ⟨-, -, -, hh', hphase, -, -, -, -, hlen'⟩ := State.append_frame s nb
  have hpend := Engine.pend_of_idle hw hb
  obtain ⟨hlen, past, hmod, hM, hh⟩ := (Engine.holds_absorb_iff hp).1 h
  rw [hpend, List.flatten_nil, List.append_nil] at hM
  rw [Engine.holds_absorb_iff (hphase.trans hp)]
  refine ⟨?_, past, hmod, ?_, hh'.trans hh⟩
  · rw [List.length_append, dataBytes_length, Nat.min_eq_left hn, hlen, hlen']
  · rw [List.append_assoc, State.append_pend_buf hpend, hM, List.append_assoc]

/-- With BUSY = 0 in ABSORB the message is what the engine has absorbed. -/
theorem Engine.absorbed_of_holds {e : Engine} {M : List Byte} (hw : e.Wf) (hb : e.busy = false)
    (hp : e.phase = .absorb) (h : e.Holds M) : e.Absorbed M := by
  obtain ⟨hlen, past, hmod, hM, hh⟩ := (Engine.holds_absorb_iff hp).1 h
  rw [Engine.pend_of_idle hw hb, List.flatten_nil, List.append_nil] at hM
  obtain ⟨-, -, -, -, hbuf, -⟩ := hw
  exact ⟨hb, hp, hlen.symm, Nat.lt_succ_of_le hbuf, past, hmod, hM, hh⟩

/-- FINAL leaves a PEND that folds H into the digest state: its completion does (`closeMessage_digest`). -/
theorem State.closeMessage_holds {s : State} {M : List Byte} (hw : s.e.Wf)
    (ha : s.e.accepts .final) (h : s.e.Holds M) : s.closeMessage.e.Holds M := by
  obtain ⟨hb, hp⟩ := ha
  obtain ⟨-, -, hlen, hh⟩ := State.closeMessage_digest (Engine.absorbed_of_holds hw hb hp h)
    (State.complete_settles (s := s.closeMessage) rfl)
  rw [State.complete_e] at hlen hh
  exact (Engine.holds_done_iff rfl).2 ⟨hlen.symm, hh⟩

/-! Which step is which -/

theorem encode_injective {i j : Instr} (hi : i.wellFormed = true) (hj : j.wellFormed = true)
    (h : encode i = encode j) : i = j :=
  Except.ok.inj ((decode_encode hi).symm.trans (h ▸ decode_encode hj))

theorem wellFormed_of_accepts {e : Engine} {nb : Nat} (ha : e.accepts (.update nb)) :
    (Instr.update nb).wellFormed = true :=
  decide_eq_true (Nat.lt_of_le_of_lt (count_le_of_accepts ha) (by decide))

/-- The next step has one event. -/
theorem State.hostTurn_unique {s : State} {ev ev' : HostEvent} {rest rest' : List HostEvent}
    (h : s.hostTurn ev rest) (h' : s.hostTurn ev' rest') : ev = ev' :=
  List.head_eq_of_cons_eq (h.1.symm.trans h'.1)

theorem State.appendsBytes_unique {s : State} {nb nb' : Nat} (h : s.appendsBytes nb)
    (h' : s.appendsBytes nb') : nb = nb' := by
  obtain ⟨_, hev, ha⟩ := h
  obtain ⟨_, hev', ha'⟩ := h'
  injection State.hostTurn_unique hev hev' with _ _ hw
  exact Instr.update.inj (encode_injective (wellFormed_of_accepts ha) (wellFormed_of_accepts ha') hw)

theorem State.not_appendsBytes_of_beginsMessage {s : State} (h : s.beginsMessage) (nb : Nat) :
    ¬ s.appendsBytes nb := by
  rintro ⟨_, hev, ha⟩
  obtain ⟨_, ⟨hev', -⟩ | hev'⟩ := h
  · injection State.hostTurn_unique hev hev' with _ _ hw
    cases encode_injective (wellFormed_of_accepts ha) (j := .init) rfl hw
  · cases State.hostTurn_unique hev hev'

/-! The three kinds of step -/

theorem holds_nil_of_beginsMessage {s t : State} (hw : s.e.Wf) (hbegin : s.beginsMessage)
    (h : step s = .next t) : t.e.Holds [] := by
  obtain ⟨rest, ⟨hev, hb⟩ | hev⟩ := hbegin
  · rw [step_command hev (decode_encode rfl), exec_of_accepts (s := s.taken rest) hb] at h
    cases h
    exact State.startMessage_holds (s := s.taken rest) hw hb
  · rw [step_of_hostTurn hev] at h
    cases h
    exact State.platformReset_holds _

theorem holds_append_of_appendsBytes {s t : State} {M : List Byte} {nb : Nat} (hw : s.e.Wf)
    (hM : s.e.Holds M) (happ : s.appendsBytes nb) (h : step s = .next t) :
    t.e.Holds (M ++ dataBytes s.e.data nb) := by
  obtain ⟨rest, hev, ha⟩ := happ
  rw [step_command hev (decode_encode (wellFormed_of_accepts ha)),
    exec_of_accepts (s := s.taken rest) ha] at h
  cases h
  exact State.append_holds (s := s.taken rest) hw ha hM

/-- Any other step keeps the message, by the effects a step can have. -/
theorem holds_of_step {s t : State} {M : List Byte} (hw : s.e.Wf) (hM : s.e.Holds M)
    (hbegin : ¬ s.beginsMessage) (happ : ∀ nb, ¬ s.appendsBytes nb) (h : step s = .next t) :
    t.e.Holds M := by
  rcases step_effect h with ⟨-, rfl⟩ | ⟨-, he⟩ | ⟨rest, ⟨i, hev, ha, rfl⟩ | ⟨w, c, -, -, -, rfl⟩ |
    ⟨v, -, rfl⟩ | ⟨hev, rfl⟩⟩
  · exact State.complete_holds hw hM
  · exact he ▸ hM
  · cases i with
    | nop => exact hM
    | init => exact absurd ⟨rest, .inl ⟨hev, ha⟩⟩ hbegin
    | update nb => exact absurd ⟨rest, hev, ha⟩ (happ nb)
    | final => exact State.closeMessage_holds (s := s.taken rest) hw ha hM
    | clrerr => exact hM.of_fields rfl rfl rfl rfl rfl
  · exact hM.of_fields (by simp) (by simp) (by simp) (by simp) (by simp)
  · exact hM.of_fields rfl rfl rfl rfl rfl
  · exact absurd ⟨rest, .inr hev⟩ hbegin

/-- Settles O40, by the three kinds of step. -/
theorem everyStepTracksTheMessage : Obligations.EveryStepTracksTheMessage := by
  intro s t M ⟨_, hw⟩ hM h
  by_cases hbegin : s.beginsMessage
  · exact ⟨[], holds_nil_of_beginsMessage hw hbegin h, fun _ => rfl,
      fun nb happ => absurd happ (State.not_appendsBytes_of_beginsMessage hbegin nb),
      fun hn => absurd hbegin hn⟩
  · by_cases happ : ∃ nb, s.appendsBytes nb
    · obtain ⟨nb, happ⟩ := happ
      refine ⟨_, holds_append_of_appendsBytes hw hM happ h, fun hb => absurd hb hbegin,
        fun nb' happ' => ?_, fun _ hn => absurd happ (hn nb)⟩
      rw [State.appendsBytes_unique happ' happ]
      rfl
    · exact ⟨M, holds_of_step hw hM hbegin (not_exists.1 happ) h, fun hb => absurd hb hbegin,
        fun nb hnb => absurd ⟨nb, hnb⟩ happ, fun _ _ => rfl⟩

end Sys2Proof.Machine
end

section
/-! The message scheduler (spec/41_message_scheduler.md): the sigma functions bit by bit, the words of the schedule by the
recurrence of R153, and the sliding window of R156 as 16 words in a row of the schedule. -/

namespace Sys2Proof.Machine

/-! The sigma functions (41_message_scheduler.md R152, 42_compressor.md R171, R172) -/

theorem smallSigma0_getLsbD (x : Word) {i : Nat} (hi : i < 32) :
    (smallSigma0 x).getLsbD i = ((x.getLsbD ((i + 7) % 32) ^^ x.getLsbD ((i + 18) % 32)) ^^
      (decide (i + 3 < 32) && x.getLsbD (i + 3))) := by
  rw [smallSigma0, BitVec.getLsbD_xor, BitVec.getLsbD_xor, rotr_getLsbD x (by decide) hi,
    rotr_getLsbD x (by decide) hi, shr_getLsbD]

theorem smallSigma1_getLsbD (x : Word) {i : Nat} (hi : i < 32) :
    (smallSigma1 x).getLsbD i = ((x.getLsbD ((i + 17) % 32) ^^ x.getLsbD ((i + 19) % 32)) ^^
      (decide (i + 10 < 32) && x.getLsbD (i + 10))) := by
  rw [smallSigma1, BitVec.getLsbD_xor, BitVec.getLsbD_xor, rotr_getLsbD x (by decide) hi,
    rotr_getLsbD x (by decide) hi, shr_getLsbD]

/-- The form both big sigma functions have: the exclusive or of three rotations. -/
theorem rotr_xor_xor_getLsbD (x : Word) {k m n i : Nat} (hk : k < 32) (hm : m < 32) (hn : n < 32)
    (hi : i < 32) :
    (rotr x k ^^^ rotr x m ^^^ rotr x n).getLsbD i =
      ((x.getLsbD ((i + k) % 32) ^^ x.getLsbD ((i + m) % 32)) ^^ x.getLsbD ((i + n) % 32)) := by
  rw [BitVec.getLsbD_xor, BitVec.getLsbD_xor, rotr_getLsbD x hk hi, rotr_getLsbD x hm hi,
    rotr_getLsbD x hn hi]

/-- Settles O45: the bits by those of the rotations and shifts, the examples by evaluation. -/
theorem sigmaFunctions : Obligations.SigmaFunctions := by
  refine ⟨fun x i hi => ⟨smallSigma0_getLsbD x hi, smallSigma1_getLsbD x hi, ?_, ?_⟩, by decide⟩
  · exact rotr_xor_xor_getLsbD x (by decide) (by decide) (by decide) hi
  · exact rotr_xor_xor_getLsbD x (by decide) (by decide) (by decide) hi

/-! The words of the schedule (41_message_scheduler.md R151, R153) -/

/-- The word an extension adds. -/
theorem extendSchedule_getD_length (W : List Word) (i : Nat) :
    (extendSchedule W i).getD W.length 0 =
      scheduleSum (W.getD (i - 2) 0) (W.getD (i - 7) 0) (W.getD (i - 15) 0) (W.getD (i - 16) 0) := by
  rw [extendSchedule, List.getD_append_right _ _ _ _ le_rfl, Nat.sub_self, List.getD_cons_zero]

/-- Extensions in increasing index: each word they add is the sum of four words of the result, as the
four are there when it is added and are kept from then on. -/
theorem foldl_extendSchedule_recurrence {i n : Nat} {W : List Word} (hW : 0 < W.length)
    (hi : W.length ≤ i) (hin : i < W.length + n) {S : List Word}
    (hS : (List.range' W.length n).foldl extendSchedule W = S) :
    S.getD i 0 =
      scheduleSum (S.getD (i - 2) 0) (S.getD (i - 7) 0) (S.getD (i - 15) 0) (S.getD (i - 16) 0) := by
  induction n generalizing W with
  | zero => omega
  | succ n ih =>
    have hkept : ∀ j, j < W.length → S.getD j 0 = W.getD j 0 := fun j hj => by
      rw [← hS, foldl_extendSchedule_getD _ _ _ hj]
    rw [List.range'_succ, List.foldl_cons] at hS
    obtain rfl | hlt := hi.eq_or_lt
    · rw [← hS, foldl_extendSchedule_getD _ _ _ (by simp), extendSchedule_getD_length, hS,
        hkept _ (by omega), hkept _ (by omega), hkept _ (by omega), hkept _ (by omega)]
    · exact ih (W := extendSchedule W W.length) (by simp) (by simpa using hlt) (by simp; omega)
        (by simpa using hS)

theorem blockWords_getD (B : Block) {i : Nat} (hi : i < 16) :
    (blockWords B).getD i 0 = blockWord B i := by simp [blockWords, hi]

theorem schedule_getD_of_lt (B : Block) {i : Nat} (hi : i < 16) :
    (schedule B).getD i 0 = blockWord B i := by
  rw [schedule, foldl_extendSchedule_getD _ _ _ (by simpa using hi), blockWords_getD B hi]

theorem schedule_getD_of_ge (B : Block) {i : Nat} (hi : 16 ≤ i) (hi' : i < 64) :
    (schedule B).getD i 0 =
      scheduleSum ((schedule B).getD (i - 2) 0) ((schedule B).getD (i - 7) 0)
        ((schedule B).getD (i - 15) 0) ((schedule B).getD (i - 16) 0) :=
  foldl_extendSchedule_recurrence (W := blockWords B) (n := 48) (by simp) (by simpa using hi)
    (by simpa using hi') (by rw [blockWords_length, schedule])

/-- The example of R151: the first word of a block that begins with "abc" and 0x80. -/
theorem schedule_getD_zero_abc (rest : List Byte) :
    (schedule ([0x61#8, 0x62#8, 0x63#8, 0x80#8] ++ rest)).getD 0 0 = 0x61626380#32 := by
  have hword : be32 0x61#8 0x62#8 0x63#8 0x80#8 = 0x61626380#32 := by decide
  rw [schedule_getD_of_lt _ (by decide), ← hword]
  rfl

/-- The examples of R153: words of the one block of "abc". -/
theorem schedule_abc :
    (schedule (pad [0x61#8, 0x62#8, 0x63#8])).getD 16 0 = 0x61626380#32 ∧
    (schedule (pad [0x61#8, 0x62#8, 0x63#8])).getD 17 0 = 0x000f0000#32 ∧
    (schedule (pad [0x61#8, 0x62#8, 0x63#8])).getD 63 0 = 0x12b1edeb#32 := by
  decide +kernel

/-- Settles O48: the first 16 words are kept by every extension, each later one is that of
`foldl_extendSchedule_recurrence`, and the examples by evaluation. -/
theorem scheduleFollowsTheRecurrence : Obligations.ScheduleFollowsTheRecurrence :=
  ⟨fun B _ => ⟨schedule_length B, fun _ hi => schedule_getD_of_lt B hi,
    fun _ hi hi' => schedule_getD_of_ge B hi hi'⟩,
    schedule_getD_zero_abc,
    schedule_abc⟩

/-! The sliding window (41_message_scheduler.md R156) -/

/-- The window before round 16 + n: the 16 words W[n..n+15] of the schedule. -/
def WindowHolds (B : Block) (n : Nat) (V : List Word) : Prop :=
  V.length = 16 ∧ ∀ j, j < 16 → V.getD j 0 = (schedule B).getD (n + j) 0

theorem windowHolds_blockWords (B : Block) : WindowHolds B 0 (blockWords B) := by
  refine ⟨blockWords_length B, fun j hj => ?_⟩
  rw [Nat.zero_add, schedule_getD_of_lt B hj, blockWords_getD B hj]

theorem slideWindow_getD_of_lt {V : List Word} {j : Nat} (h : j + 1 < V.length) :
    (slideWindow V).getD j 0 = V.getD (j + 1) 0 := by
  rw [slideWindow, List.getD_append _ _ _ _ (by rw [List.length_drop]; omega)]
  simp

theorem slideWindow_getD_last {V : List Word} (h : V.length = 16) :
    (slideWindow V).getD 15 0 =
      scheduleSum (V.getD 14 0) (V.getD 9 0) (V.getD 1 0) (V.getD 0 0) := by
  have hdrop : (V.drop 1).length = 15 := by rw [List.length_drop, h]
  rw [slideWindow, List.getD_append_right _ _ _ _ hdrop.le, hdrop, Nat.sub_self,
    List.getD_cons_zero]

/-- Sliding drops the oldest word; the new one is that of R153, as the window has the four words it
names. -/
theorem windowHolds_slideWindow {B : Block} {n : Nat} {V : List Word} (h : WindowHolds B n V)
    (hn : n < 48) : WindowHolds B (n + 1) (slideWindow V) := by
  obtain ⟨hlen, hV⟩ := h
  refine ⟨by simp [slideWindow, hlen], fun j hj => ?_⟩
  obtain hlt | rfl : j < 15 ∨ j = 15 := by omega
  · rw [slideWindow_getD_of_lt (by omega), hV _ (by omega), Nat.add_right_comm, Nat.add_assoc]
  · rw [slideWindow_getD_last hlen, schedule_getD_of_ge B (by omega) (by omega),
      hV 14 (by decide), hV 9 (by decide), hV 1 (by decide), hV 0 (by decide)]
    rfl

theorem windowHolds_iterate (B : Block) {n : Nat} (hn : n ≤ 48) :
    WindowHolds B n (slideWindow^[n] (blockWords B)) := by
  induction n with
  | zero => exact windowHolds_blockWords B
  | succ n ih =>
    rw [Function.iterate_succ_apply']
    exact windowHolds_slideWindow (ih (by omega)) hn

/-- Settles O49: from round 16 on the word is the last one of a window of the schedule. -/
theorem slidingWindowGivesTheSchedule : Obligations.SlidingWindowGivesTheSchedule := by
  intro B t ht
  rw [windowWord]
  split
  next h => exact (schedule_getD_of_lt B h).symm
  next h =>
    obtain ⟨-, hwindow⟩ := windowHolds_iterate B (n := t - 15) (by omega)
    rw [hwindow 15 (by decide), show t - 15 + 15 = t by omega]

end Sys2Proof.Machine
end

section
/-! The compression unit (spec/42_compressor.md): Ch and Maj bit by bit, one round, the completion step, and the tables K
and IV as roots of the first primes. -/

namespace Sys2Proof.Machine

/-! Ch, Maj and the round (42_compressor.md R173, R174, R177, R178) -/

theorem ch_getLsbD (e f g : Word) {i : Nat} (hi : i < 32) :
    (ch e f g).getLsbD i = (if e.getLsbD i then f.getLsbD i else g.getLsbD i) := by
  rw [ch, BitVec.getLsbD_xor, BitVec.getLsbD_and, BitVec.getLsbD_and, BitVec.getLsbD_not]
  cases e.getLsbD i <;> simp [hi]

theorem maj_getLsbD (a b c : Word) (i : Nat) :
    (maj a b c).getLsbD i = true ↔
      2 ≤ (a.getLsbD i).toNat + (b.getLsbD i).toNat + (c.getLsbD i).toNat := by
  rw [maj, BitVec.getLsbD_xor, BitVec.getLsbD_xor, BitVec.getLsbD_and, BitVec.getLsbD_and,
    BitVec.getLsbD_and]
  generalize a.getLsbD i = x, b.getLsbD i = y, c.getLsbD i = z
  revert x y z
  decide

theorem ch_ones (f g : Word) : ch 0xffffffff#32 f g = f := by
  have hones : 0xffffffff#32 = BitVec.allOnes 32 := by decide
  rw [ch, hones, BitVec.allOnes_and, BitVec.not_allOnes, BitVec.zero_and, BitVec.xor_zero]

theorem ch_zero (f g : Word) : ch 0#32 f g = g := by
  rw [ch, BitVec.zero_and, BitVec.not_zero, BitVec.allOnes_and, BitVec.zero_xor]

/-- Settles O46: the bits by the two values of each, the examples by evaluation. -/
theorem chooseAndMajority : Obligations.ChooseAndMajority :=
  ⟨fun e f g i hi => ⟨ch_getLsbD e f g hi, maj_getLsbD e f g i⟩,
    fun f g => ⟨ch_ones f g, ch_zero f g⟩, by decide⟩

/-- Settles O50: the round is this record by definition, the example by evaluation. -/
theorem roundFollowsItsRule : Obligations.RoundFollowsItsRule :=
  ⟨fun _ _ _ => rfl, by decide⟩

/-! The completion step (42_compressor.md R185) -/

theorem completionTurn_iff (s : State) :
    completionTurn s = true ↔ s.e.busy = true ∧ (s.queue = [] ∨ s.delay = 0) := by
  simp [completionTurn]

/-- Settles O29: the turn by `completionTurn_iff`, the effect by `State.complete_e`. -/
theorem completionFoldsThePendingBlocks : Obligations.CompletionFoldsThePendingBlocks := by
  constructor
  · intro s hbusy hturn
    exact ⟨s.complete, step_of_completionTurn ((completionTurn_iff s).2 ⟨hbusy, hturn⟩),
      s.complete_e, rfl, rfl, rfl⟩
  · intro s hbusy hqueue
    exact step_of_waiting (by simp [completionTurn, hbusy]) hqueue

/-! The tables K and IV (42_compressor.md R170, 43_digest_accumulator.md R200) -/

/-- By this the first values of `Nat.nth` are found by evaluating a filter. -/
theorem filter_range_eq_map_nth (p : Nat → Prop) [DecidablePred p] (n : Nat) :
    (List.range n).filter p = (List.range (Nat.count p n)).map (Nat.nth p) := by
  induction n with
  | zero => simp
  | succ n ih =>
    rw [List.range_succ, List.filter_append, ih, Nat.count_succ]
    by_cases hn : p n
    · simp [hn, List.range_succ, Nat.nth_count hn]
    · simp [hn]

/-- The first 64 primes, as many as K has words. -/
def firstPrimes : List Nat :=
  [2, 3, 5, 7, 11, 13, 17, 19, 23, 29, 31, 37, 41, 43, 47, 53,
   59, 61, 67, 71, 73, 79, 83, 89, 97, 101, 103, 107, 109, 113, 127, 131,
   137, 139, 149, 151, 157, 163, 167, 173, 179, 181, 191, 193, 197, 199, 211, 223,
   227, 229, 233, 239, 241, 251, 257, 263, 269, 271, 277, 281, 283, 293, 307, 311]

theorem filter_prime_range : (List.range 312).filter Nat.Prime = firstPrimes := by
  decide +kernel

theorem nth_prime_eq {t : Nat} (ht : t < 64) : Nat.nth Nat.Prime t = firstPrimes.getD t 0 := by
  have hmap := filter_range_eq_map_nth Nat.Prime 312
  have hcount : Nat.count Nat.Prime 312 = 64 := by
    simpa [filter_prime_range, firstPrimes] using (congrArg List.length hmap).symm
  rw [← filter_prime_range, hmap, hcount]
  simp [ht]

theorem kWord_cubeRoot : ∀ t, t < 64 → ∃ n, n < 8 ∧
    (n * 2 ^ 32 + (kWord t).toNat) ^ 3 ≤ firstPrimes.getD t 0 * 2 ^ 96 ∧
    firstPrimes.getD t 0 * 2 ^ 96 < (n * 2 ^ 32 + (kWord t).toNat + 1) ^ 3 := by
  decide

theorem iv_squareRoot : ∀ i, i < 8 → ∃ n, n < 5 ∧
    (n * 2 ^ 32 + (iv.word i).toNat) ^ 2 ≤ firstPrimes.getD i 0 * 2 ^ 64 ∧
    firstPrimes.getD i 0 * 2 ^ 64 < (n * 2 ^ 32 + (iv.word i).toNat + 1) ^ 2 := by
  decide

/-- Settles O47: the primes by `nth_prime_eq`, the bounds by evaluation. -/
theorem constantTablesAreRootsOfPrimes : Obligations.ConstantTablesAreRootsOfPrimes := by
  refine ⟨rfl, fun t ht => ?_, fun i hi => ?_⟩
  · rw [nth_prime_eq ht]
    exact kWord_cubeRoot t ht
  · rw [nth_prime_eq (by omega)]
    exact iv_squareRoot i hi

end Sys2Proof.Machine
end

section
/-! The digest accumulator (spec/43_digest_accumulator.md): INIT, NOP and CLRERR, the writes of the window, hashing in
parts, and the digest that a host reads. -/

namespace Sys2Proof.Machine

/-! The commands (43_digest_accumulator.md R202, R206, R207) -/

theorem exec_init_of_busy {s : State} (hb : s.e.busy = true) :
    exec .init s = .next (s.reject .busy) :=
  exec_of_commandError (i := .init) (if_pos hb)

theorem exec_init_of_idle {s : State} (hb : s.e.busy = false) : exec .init s = .next s.startMessage :=
  exec_of_accepts (i := .init) hb

theorem State.clearError_of_noError {s : State} (herr : s.e.err = false) (hcode : s.e.errCode = .none) :
    s.clearError = s := by
  rw [State.clearError, ← herr, ← hcode]

/-- reject records the first error (60_exceptions.md R236). -/
theorem State.reject_of_noError {s : State} (c : ErrCode) (herr : s.e.err = false) :
    s.reject c = { s with e := { s.e with err := true, errCode := c } } := by
  rw [State.reject_eq, herr]
  rfl

/-- CLRERR takes ERR and ERRCODE out of STATUS and leaves its other fields (10_state.md R38). -/
theorem State.clearError_status (s : State) :
    s.clearError.e.status.toNat + 2 * s.e.err.toNat + 16 * s.e.errCode.code.toNat =
      s.e.status.toNat := by
  rw [status_toNat s.e, status_toNat s.clearError.e]
  show s.e.busy.toNat + 2 * 0 + 4 * s.e.phase.code.toNat + 16 * 0 + 256 * (s.e.buf.length % 64) +
    2 * s.e.err.toNat + 16 * s.e.errCode.code.toNat = _
  omega

/-- 0x32 is ERR = 1 with ERRCODE = SEQ, and 0 in every other field. -/
theorem State.clearError_status_seq {s : State} (h : s.e.status = 0x00000032#32) :
    s.clearError.e.status = 0x00000000#32 := by
  have hnum : s.e.status.toNat = 0x32 := congrArg BitVec.toNat h
  have hclear := s.clearError_status
  have hfields := status_toNat s.e
  have hbusy := s.e.busy.toNat_lt
  have herr := s.e.err.toNat_lt
  have hphase := phase_code_lt s.e.phase
  apply BitVec.eq_of_toNat_eq
  rw [BitVec.toNat_ofNat]
  omega

/-- Settles O6: the word decodes to NOP, whose meaning is the identity. -/
theorem nopWritesNothing : Obligations.NopWritesNothing :=
  ⟨rfl, fun _ => rfl, fun s => ⟨s, issue_of_decode (decode_encode (i := .nop) rfl) s, rfl⟩⟩

/-- Settles O7: the effect by definition, reserved bits by the first clause of an illegal word, the
example by the fields of STATUS. -/
theorem clrerrClearsTheErrorRecord : Obligations.ClrerrClearsTheErrorRecord := by
  refine ⟨rfl, fun _ => rfl, fun s herr hcode => ?_, fun s w _ hrsvd herr => ?_,
    fun s h => ⟨s.clearError, rfl, State.clearError_status_seq h⟩⟩
  · exact congrArg Host.Outcome.next (State.clearError_of_noError herr hcode)
  · rw [issue_of_illegalWord (.inl hrsvd), State.reject_of_noError _ herr]

/-- Settles O8, by whether BUSY lets INIT through; the example by evaluation. -/
theorem initStartsAMessage : Obligations.InitStartsAMessage :=
  ⟨rfl, fun _ hb => exec_init_of_busy hb, fun _ hb => exec_init_of_idle hb,
    State.reset.startMessage, exec_init_of_idle rfl, rfl, by decide, fun _ => rfl⟩

/-! The writes of the window (43_digest_accumulator.md R209) -/

/-- The step that an admitted write makes. -/
theorem step_write {s : State} {rest : List HostEvent} {off : Nat} {v : Word} (hoff : off < 256)
    (h4 : off % 4 = 0) (h : s.hostTurn (.write (s.base + off) 4 v) rest) :
    step s = regWrite off v (s.taken rest) := by
  rw [step_of_hostTurn h]
  exact busWrite_admitted (s.taken rest) off v hoff h4

theorem regWrite_ignored {off : Nat} (h0 : off ≠ 0x00) (h8 : off ≠ 0x08) (v : Word) (s : State) :
    regWrite off v s = .next s := by
  rw [regWrite, if_neg h0, if_neg h8]

/-- Settles O23, by RegWrite at CMD, at DATA and at any other offset. -/
theorem writesReachOnlyCmdAndData : Obligations.WritesReachOnlyCmdAndData := by
  intro s rest off v hoff h4 h
  rw [step_write hoff h4 h]
  refine ⟨?_, ?_, fun h0 h8 => regWrite_ignored h0 h8 v _⟩
  · rintro rfl; rfl
  · rintro rfl; rfl

/-! Hashing in parts (43_digest_accumulator.md R213, R211) -/

/-- Settles O54: a first part of whole blocks stands unchanged at the head of the padded message, and the
blocks of the two parts are folded one after the other. -/
theorem incrementalConsistency : Obligations.IncrementalConsistency := by
  intro M1 M2 hM1
  rw [pad_append_of_blocks M2 hM1, List.drop_left, blocks_append _ _ hM1, fold_append]

/-- Settles O56, by the run of `reaches_hashSplit`. -/
theorem anySplitReadsTheDigest : Obligations.AnySplitReadsTheDigest := by
  intro s groups hg hmax hb hq
  obtain ⟨t, ⟨⟨n, hrun⟩, hqueue, -, herr, hcode⟩, hdigest, hphase, hbusy, hlen⟩ :=
    State.reaches_hashSplit hg hmax hb hq
  exact ⟨n, t, hrun, hqueue, hdigest, hphase, hbusy, hlen, herr, hcode⟩

end Sys2Proof.Machine
end

section
/-! Rejection (spec/60_exceptions.md): what reject records, what a command that is not accepted changes, and which error
a written word records. -/

namespace Sys2Proof.Machine

/-! The record of reject (60_exceptions.md R236) -/

/-- While an error is recorded reject changes nothing (60_exceptions.md R236). -/
theorem State.reject_of_error {s : State} (c : ErrCode) (herr : s.e.err = true) : s.reject c = s := by
  rw [State.reject, Engine.reject, if_pos herr]

/-- Settles O14, by whether an error is already recorded. -/
theorem rejectKeepsTheFirstError : Obligations.RejectKeepsTheFirstError :=
  fun _ c => ⟨State.reject_of_noError c, State.reject_of_error c⟩

/-- Settles O15: the command answers reject with a code that is not "no error". -/
theorem rejectedCommandsOnlyRecord : Obligations.RejectedCommandsOnlyRecord := by
  intro i s ha
  obtain ⟨t, ht⟩ := exec_next i s
  rcases exec_cases ht with ⟨hacc, -⟩ | ⟨-, c, hc, rfl⟩
  · exact absurd hacc ha
  · exact ⟨c, hc, by rw [ht, State.reject_eq]⟩

/-! The error a written word records (60_exceptions.md R238) -/

/-- A word that meets no clause of 30_encoding.md R97 decodes to the command its OP and NB name. -/
theorem decode_of_not_illegalWord {w : Word} (h : ¬ illegalWord w) :
    decode w = .ok (instrOfOp (w.toNat % 16) (w.toNat / 16 % 8)) := by
  rw [illegalWord, not_or, not_or] at h
  obtain ⟨hrsvd, hop, hnb⟩ := h
  rw [decode, rsvdField_eq, opField_eq, nbField_eq, if_neg hrsvd, if_neg hop, if_neg hnb]

/-- The error record is the one that a check's result `o` leaves where there was no error. -/
def Engine.Records (e : Engine) : Option ErrCode → Prop
  | none => e.err = false
  | some c => e.err = true ∧ e.errCode = c

theorem State.perform_records_none (i : Instr) {s : State} (herr : s.e.err = false) :
    (s.perform i).e.Records none := by
  by_cases hi : i = .clrerr
  · subst hi; rfl
  · obtain ⟨hkept, -⟩ := State.perform_record hi s
    exact hkept.trans herr

theorem State.reject_records {s : State} (c : ErrCode) (herr : s.e.err = false) :
    (s.reject c).e.Records (some c) := by
  rw [State.reject_of_noError c herr]
  exact ⟨rfl, rfl⟩

/-- With no error recorded, a command leaves the record of its first check that fails. -/
theorem exec_records (i : Instr) {s : State} (herr : s.e.err = false) :
    ∃ t, exec i s = .next t ∧ t.e.Records (commandError i s.e) := by
  cases hc : commandError i s.e with
  | none =>
    have ha := (commandError_eq_none_iff i s.e).1 hc
    exact ⟨s.perform i, exec_of_accepts ha, State.perform_records_none i herr⟩
  | some c => exact ⟨s.reject c, exec_of_commandError hc, State.reject_records c herr⟩

/-- With no error recorded, a legal word records what the checks of its opcode's command give. -/
theorem issue_records {w : Word} {s : State} (hw : ¬ illegalWord w) (herr : s.e.err = false) :
    ∃ t, issue w s = .next t ∧ ∀ op o, w.toNat % 16 = op →
      commandError (instrOfOp op (w.toNat / 16 % 8)) s.e = o → t.e.Records o := by
  obtain ⟨t, ht, hrec⟩ := exec_records (instrOfOp (w.toNat % 16) (w.toNat / 16 % 8)) herr
  refine ⟨t, (issue_of_decode (decode_of_not_illegalWord hw) s).trans ht, ?_⟩
  rintro op o rfl rfl
  exact hrec

/-- Settles O16: an illegal word is rejected before any check, and a legal one records the first check of
its command that fails (`issue_records`), opcode by opcode. -/
theorem errorPriority : Obligations.ErrorPriority := by
  intro s w herr
  by_cases hw : illegalWord w
  · exact ⟨s.reject .illegal, issue_of_illegalWord hw s, fun _ => State.reject_records _ herr,
      absurd hw, absurd hw, absurd hw, absurd hw, absurd hw, absurd hw, absurd hw⟩
  obtain ⟨t, ht, hrec⟩ := issue_records hw herr
  refine ⟨t, ht, (absurd · hw), fun _ hop => ?_, fun _ hop hb => ?_, fun _ hop hb => ?_,
    fun _ hop hb hp => ?_, fun _ hop hb hp => ?_, fun _ hop hb hp hn => ?_, fun _ hop hb hp hn => ?_⟩
  · rcases hop with hop | hop
    · exact hrec 0 none hop rfl
    · exact hrec 4 none hop rfl
  · rcases hop with hop | hop | hop
    · exact hrec 1 (some .busy) hop (if_pos hb)
    · exact hrec 2 (some .busy) hop (updateError_of_busy hb)
    · exact hrec 3 (some .busy) hop (finalError_of_busy hb)
  · exact hrec 1 none hop ((commandError_eq_none_iff .init s.e).2 hb)
  · rcases hop with hop | hop
    · exact hrec 2 (some .seq) hop (updateError_of_phase hb hp)
    · exact hrec 3 (some .seq) hop (finalError_of_phase hb hp)
  · exact hrec 3 none hop ((commandError_eq_none_iff .final s.e).2 ⟨hb, hp⟩)
  · exact hrec 2 (some .arg) hop (updateError_of_count hb hp hn)
  · split_ifs with hl
    · exact hrec 2 (some .len) hop (updateError_of_length hb hp hn hl)
    · exact hrec 2 none hop
        ((commandError_eq_none_iff (.update _) s.e).2 ⟨hb, hp, hn, Nat.le_of_not_lt hl⟩)

end Sys2Proof.Machine
end

section
/-! Reset and the hazards (spec/70_reset_and_hazards.md): the state a reset leaves, every poll ends, a command written
without polling, and when the digest is ready. -/

namespace Sys2Proof.Machine

/-! The reset (70_reset_and_hazards.md R260, R262) -/

/-- Settles O33, by evaluation: the reset state has BUSY = 0, so no read of it returns a free word. -/
theorem resetValues : Obligations.ResetValues :=
  ⟨by decide, fun _ => ⟨rfl, rfl, rfl, rfl⟩, rfl, rfl, rfl⟩

/-- Settles O34: the host's turn makes the step the platform's reset, whatever the state. -/
theorem platformResetFromEveryState : Obligations.PlatformResetFromEveryState :=
  fun s rest h => ⟨(s.taken rest).platformReset, step_of_hostTurn h,
    rfl, rfl, rfl, rfl, rfl, rfl, rfl, rfl, rfl, rfl, rfl, rfl⟩

/-! Polling, and writing without it (70_reset_and_hazards.md R281, R270) -/

/-- Settles O31, by the run of `run_poll`. -/
theorem everyPollEnds : Obligations.EveryPollEnds := by
  intro s rest hq
  obtain ⟨n, t, hn, hrun, hqueue, hbase, hbusy, hidle⟩ := run_poll hq
  exact ⟨n, t, hn, hrun, hqueue, hbase, hbusy, hidle⟩

/-- BUSY is the first check of every command that has one (60_exceptions.md R233, R238). -/
theorem commandError_of_busy {i : Instr} {e : Engine} (hnop : i ≠ .nop) (hclr : i ≠ .clrerr)
    (hb : e.busy = true) : commandError i e = some .busy := by
  cases i with
  | nop => exact absurd rfl hnop
  | init => exact if_pos hb
  | update nb => exact updateError_of_busy hb
  | final => exact finalError_of_busy hb
  | clrerr => exact absurd rfl hclr

/-- Settles O32: at delay 0 the completion comes first and leaves BUSY = 0, where the command has the next
turn; before that the command has its turn and fails the check of BUSY. -/
theorem unpolledCommandHasTwoOutcomes : Obligations.UnpolledCommandHasTwoOutcomes := by
  intro s rest i w hb hd hnop hclr hq
  refine ⟨fun h0 => ?_, fun h0 => ?_⟩
  · have hturn : completionTurn s = true := (completionTurn_iff s).2 ⟨hb, .inr h0⟩
    have hnext : s.complete.hostTurn (.write s.complete.base 4 w) rest := hostTurn_of_idle rfl hq
    exact ⟨s.complete, step_of_completionTurn hturn, rfl, rfl, step_command hnext hd⟩
  · rw [step_command ⟨hq, fun _ => h0⟩ hd]
    exact exec_of_commandError (commandError_of_busy hnop hclr hb)

/-! When the digest is ready (70_reset_and_hazards.md R272) -/

/-- The whole blocks of a message that ends with a partial block are what stands before it. -/
theorem take_whole_blocks {past buf : List Byte} (hmod : past.length % 64 = 0) (hbuf : buf.length < 64) :
    (past ++ buf).take ((past ++ buf).length / 64 * 64) = past := by
  have hlen : (past ++ buf).length / 64 * 64 = past.length := by
    rw [List.length_append]; omega
  rw [hlen, List.take_left]

/-- In ABSORB with BUSY = 0, H is the state after the whole blocks of the message (10_state.md R35 (g)). -/
theorem Engine.Absorbed.h_eq {e : Engine} {M : List Byte} (h : e.Absorbed M) :
    e.h = fold iv (blocks (M.take (M.length / 64 * 64))) := by
  obtain ⟨past, hmod, rfl, hh⟩ := h.split
  rw [take_whole_blocks hmod h.buf_lt, hh]

/-- Settles O41: with BUSY = 0 nothing is left to fold into H in DONE, and in ABSORB the message is the one
absorbed. -/
theorem readyDigestIsTheMessages : Obligations.ReadyDigestIsTheMessages := by
  intro s M ⟨_, hw⟩ hM hb
  refine ⟨fun hp => ?_, fun hp => (Engine.absorbed_of_holds hw hb hp hM).h_eq⟩
  obtain ⟨-, hfold⟩ := (Engine.holds_done_iff hp).1 hM
  rwa [Engine.pend_of_idle hw hb, fold_nil] at hfold

end Sys2Proof.Machine
end
